-- ==== Sys2Proof/Word.lean ====
section
/-! DEFINITION. The widths of the machine (spec/00_scope.md R2): the word types every other file uses. -/

namespace Sys2Proof

/-- 8 bits: a byte of memory, a general register, a timer. -/
abbrev Byte := BitVec 8

/-- 16 bits: an instruction word, `pc`, `I`, a stack entry. -/
abbrev Word := BitVec 16

/-- 12 bits: an effective address (20_memory.md R41) and the field `nnn`. -/
abbrev Addr := BitVec 12

/-- The index of a general register, from a 4-bit field, always in range (10_state.md R11). -/
abbrev Reg := Fin 16

/-- The framebuffer: 32 rows of 64 one-bit pixels. Bit `cx` of row `cy` is the pixel at column `cx` and row `cy`, the
spec's `FB[cy*64 + cx]` (10_state.md R25; log 21). -/
abbrev Screen := Vector (BitVec 64) 32

/-- The index of a pixel, `cy*64 + cx` (10_state.md R25). -/
abbrev Pixel := Fin 2048

end Sys2Proof
end

