-- ==== Sys2Proof/Syntax.lean ====
section
/-! DEFINITION. The instruction set: one constructor per row of the opcode table (30_encoding.md R66), its operands the
fields the row uses (R61). The types of the operands hold exactly the values the fields hold. -/

namespace Sys2Proof

/-- The 30 instructions, in the table's order. A register operand is `Vx` or `Vy`; `nn` is 8 bits, `nnn` 12, `n` 4. -/
inductive Instr where
  /-- `00E0` -/
  | cls
  /-- `00EE` -/
  | ret
  /-- `1nnn` -/
  | jp (nnn : Addr)
  /-- `2nnn` -/
  | call (nnn : Addr)
  /-- `3xnn` -/
  | se (x : Reg) (nn : Byte)
  /-- `4xnn` -/
  | sne (x : Reg) (nn : Byte)
  /-- `6xnn` -/
  | ldi (x : Reg) (nn : Byte)
  /-- `7xnn` -/
  | addi (x : Reg) (nn : Byte)
  /-- `8xy0` -/
  | mov (x y : Reg)
  /-- `8xy1` -/
  | or (x y : Reg)
  /-- `8xy2` -/
  | and (x y : Reg)
  /-- `8xy3` -/
  | xor (x y : Reg)
  /-- `8xy4` -/
  | add (x y : Reg)
  /-- `8xy5` -/
  | sub (x y : Reg)
  /-- `8xy6` -/
  | shr (x y : Reg)
  /-- `8xy7` -/
  | subn (x y : Reg)
  /-- `8xyE` -/
  | shl (x y : Reg)
  /-- `Annn` -/
  | ldidx (nnn : Addr)
  /-- `Bnnn` -/
  | jpv0 (nnn : Addr)
  /-- `Cxnn` -/
  | rnd (x : Reg) (nn : Byte)
  /-- `Dxyn` -/
  | drw (x y : Reg) (n : BitVec 4)
  /-- `Ex9E` -/
  | skp (x : Reg)
  /-- `ExA1` -/
  | sknp (x : Reg)
  /-- `Fx07` -/
  | gdt (x : Reg)
  /-- `Fx15` -/
  | sdt (x : Reg)
  /-- `Fx18` -/
  | sst (x : Reg)
  /-- `Fx1E` -/
  | addidx (x : Reg)
  /-- `Fx33` -/
  | bcd (x : Reg)
  /-- `Fx55` -/
  | stm (x : Reg)
  /-- `Fx65` -/
  | ldm (x : Reg)
deriving DecidableEq, Repr

end Sys2Proof
end

