-- ==== Sys2Proof/WellFormed.lean ====
section
/-! DEFINITION. What a well-formed instruction and a well-formed program are. The operand types of `Instr` already hold
only values that fit their fields (log 24), so the instruction check holds of every `Instr`; the field check itself is
about raw numbers and refuses what does not fit. -/

namespace Sys2Proof

/-- A raw number fits a field of `width` bits (30_encoding.md R61). -/
def fieldFits (width value : Nat) : Bool := decide (value < 2 ^ width)

/-- The operands of an instruction as (field width, value) pairs, in the order of the row's fields. -/
def Instr.operands : Instr → List (Nat × Nat)
  | .cls | .ret => []
  | .jp nnn | .call nnn | .ldidx nnn | .jpv0 nnn => [(12, nnn.toNat)]
  | .se x nn | .sne x nn | .ldi x nn | .addi x nn | .rnd x nn => [(4, x.val), (8, nn.toNat)]
  | .mov x y | .or x y | .and x y | .xor x y | .add x y | .sub x y | .shr x y | .subn x y | .shl x y =>
    [(4, x.val), (4, y.val)]
  | .drw x y n => [(4, x.val), (4, y.val), (4, n.toNat)]
  | .skp x | .sknp x | .gdt x | .sdt x | .sst x | .addidx x | .bcd x | .stm x | .ldm x => [(4, x.val)]

/-- Every operand fits its field. -/
def Instr.wellFormed (i : Instr) : Bool := i.operands.all fun p => fieldFits p.1 p.2

/-- The largest program: 4096 - 0x200 bytes (20_memory.md R52). -/
def maxProgramBytes : Nat := 3584

/-- A program that `LoadProgram` accepts (20_memory.md R52, R53). -/
def programFits (bytes : List Byte) : Bool := decide (bytes.length ≤ maxProgramBytes)

end Sys2Proof
end

