-- ==== Sys2Proof/Decode.lean ====
section
/-! DEFINITION. The decoder, total on any bytes and rejecting by name, and after it the encoder and the opcode table,
each written from 30_encoding.md R61 (fields), R65 (selectors) and R66 (rows). -/

namespace Sys2Proof

/-! ### The fields of an instruction word (R61) -/

/-- `opcode` = bits 15 to 12. -/
def opcodeOf (w : Word) : BitVec 4 := w.extractLsb' 12 4
/-- `x` = bits 11 to 8, a register index. -/
def xOf (w : Word) : Reg := (w.extractLsb' 8 4).toFin
/-- `y` = bits 7 to 4, a register index. -/
def yOf (w : Word) : Reg := (w.extractLsb' 4 4).toFin
/-- `n` = bits 3 to 0. -/
def nOf (w : Word) : BitVec 4 := w.extractLsb' 0 4
/-- `nn` = bits 7 to 0. -/
def nnOf (w : Word) : Byte := w.extractLsb' 0 8
/-- `nnn` = bits 11 to 0. -/
def nnnOf (w : Word) : Addr := w.extractLsb' 0 12

/-- The classes of unrecognized words (45_unrecognized.md R141 to R146). -/
inductive Unrecognized where
  /-- R141: family 0 other than the words 0x00E0 and 0x00EE. -/
  | family0
  /-- R142: every word of family 5. -/
  | family5
  /-- R143: every word of family 9. -/
  | family9
  /-- R144: family 8 with `n` in 8 to D, or F. -/
  | family8
  /-- R145: family E with `nn` other than 0x9E and 0xA1. -/
  | familyE
  /-- R146: family F with `nn` outside the seven rows. -/
  | familyF
deriving DecidableEq, Repr

/-- Why the decoder gives no instruction. -/
inductive DecodeError where
  /-- Fewer than the two bytes of a word (R60). -/
  | truncated
  /-- The word matches no row (R67); it executes as a no-op. -/
  | unrecognized (c : Unrecognized)
deriving DecidableEq, Repr

/-- Family 0 is selected by the whole of `nnn` (R65, decision D20, log 17). -/
def decodeFamily0 (w : Word) : Except Unrecognized Instr :=
  if nnnOf w = 0x0E0#12 then .ok .cls
  else if nnnOf w = 0x0EE#12 then .ok .ret
  else .error .family0

/-- Family 8 is selected by `n` (R65). -/
def decodeFamily8 (w : Word) : Except Unrecognized Instr :=
  let x := xOf w
  let y := yOf w
  let n := nOf w
  if n = 0x0#4 then .ok (.mov x y)
  else if n = 0x1#4 then .ok (.or x y)
  else if n = 0x2#4 then .ok (.and x y)
  else if n = 0x3#4 then .ok (.xor x y)
  else if n = 0x4#4 then .ok (.add x y)
  else if n = 0x5#4 then .ok (.sub x y)
  else if n = 0x6#4 then .ok (.shr x y)
  else if n = 0x7#4 then .ok (.subn x y)
  else if n = 0xE#4 then .ok (.shl x y)
  else .error .family8

/-- Family E is selected by `nn` (R65). -/
def decodeFamilyE (w : Word) : Except Unrecognized Instr :=
  if nnOf w = 0x9E#8 then .ok (.skp (xOf w))
  else if nnOf w = 0xA1#8 then .ok (.sknp (xOf w))
  else .error .familyE

/-- Family F is selected by `nn` (R65). -/
def decodeFamilyF (w : Word) : Except Unrecognized Instr :=
  let x := xOf w
  let nn := nnOf w
  if nn = 0x07#8 then .ok (.gdt x)
  else if nn = 0x15#8 then .ok (.sdt x)
  else if nn = 0x18#8 then .ok (.sst x)
  else if nn = 0x1E#8 then .ok (.addidx x)
  else if nn = 0x33#8 then .ok (.bcd x)
  else if nn = 0x55#8 then .ok (.stm x)
  else if nn = 0x65#8 then .ok (.ldm x)
  else .error .familyF

/-- The instruction a word stands for, or the class of unrecognized words it belongs to. Dispatch is keyed by the
opcode nibble (R65). -/
def decodeWord (w : Word) : Except Unrecognized Instr :=
  let op := opcodeOf w
  if op = 0x0#4 then decodeFamily0 w
  else if op = 0x1#4 then .ok (.jp (nnnOf w))
  else if op = 0x2#4 then .ok (.call (nnnOf w))
  else if op = 0x3#4 then .ok (.se (xOf w) (nnOf w))
  else if op = 0x4#4 then .ok (.sne (xOf w) (nnOf w))
  else if op = 0x5#4 then .error .family5
  else if op = 0x6#4 then .ok (.ldi (xOf w) (nnOf w))
  else if op = 0x7#4 then .ok (.addi (xOf w) (nnOf w))
  else if op = 0x8#4 then decodeFamily8 w
  else if op = 0x9#4 then .error .family9
  else if op = 0xA#4 then .ok (.ldidx (nnnOf w))
  else if op = 0xB#4 then .ok (.jpv0 (nnnOf w))
  else if op = 0xC#4 then .ok (.rnd (xOf w) (nnOf w))
  else if op = 0xD#4 then .ok (.drw (xOf w) (yOf w) (nOf w))
  else if op = 0xE#4 then decodeFamilyE w
  else decodeFamilyF w

/-- The word in two bytes of memory: the byte at the lower address is bits 15 to 8 (20_memory.md R43; PRESUMED by the
spec, decision D1, log 1). -/
def wordOfBytes (hi lo : Byte) : Word := hi ++ lo

/-- Bits 15 to 8 of a word: the byte at the lower address (R43). -/
def highByte (w : Word) : Byte := w.extractLsb' 8 8
/-- Bits 7 to 0 of a word: the byte at the higher address (R43). -/
def lowByte (w : Word) : Byte := w.extractLsb' 0 8

/-- The decoder: the instruction at the head of a list of bytes and the bytes after it. -/
def decode : List Byte → Except DecodeError (Instr × List Byte)
  | hi :: lo :: rest =>
    match decodeWord (wordOfBytes hi lo) with
    | .ok i => .ok (i, rest)
    | .error c => .error (.unrecognized c)
  | _ => .error .truncated

/-! ### The encoder -/

/-- The format `NNN`: `opcode[4] nnn[12]` (R61). -/
def formatNNN (op : BitVec 4) (nnn : Addr) : Word := op ++ nnn
/-- The format `XNN`: `opcode[4] x[4] nn[8]`. The format `X` has the same layout with `nn` fixed. -/
def formatXNN (op : BitVec 4) (x : Reg) (nn : Byte) : Word := (op ++ (BitVec.ofFin x : BitVec 4)) ++ nn
/-- The format `XYN`: `opcode[4] x[4] y[4] n[4]`. The format `XY` has the same layout with `n` fixed. -/
def formatXYN (op : BitVec 4) (x y : Reg) (n : BitVec 4) : Word :=
  ((op ++ (BitVec.ofFin x : BitVec 4)) ++ (BitVec.ofFin y : BitVec 4)) ++ n

/-- The word of an instruction: its row's match value with the operands in their fields (R66). -/
def encode : Instr → Word
  | .cls => 0x00E0#16
  | .ret => 0x00EE#16
  | .jp nnn => formatNNN 0x1#4 nnn
  | .call nnn => formatNNN 0x2#4 nnn
  | .se x nn => formatXNN 0x3#4 x nn
  | .sne x nn => formatXNN 0x4#4 x nn
  | .ldi x nn => formatXNN 0x6#4 x nn
  | .addi x nn => formatXNN 0x7#4 x nn
  | .mov x y => formatXYN 0x8#4 x y 0x0#4
  | .or x y => formatXYN 0x8#4 x y 0x1#4
  | .and x y => formatXYN 0x8#4 x y 0x2#4
  | .xor x y => formatXYN 0x8#4 x y 0x3#4
  | .add x y => formatXYN 0x8#4 x y 0x4#4
  | .sub x y => formatXYN 0x8#4 x y 0x5#4
  | .shr x y => formatXYN 0x8#4 x y 0x6#4
  | .subn x y => formatXYN 0x8#4 x y 0x7#4
  | .shl x y => formatXYN 0x8#4 x y 0xE#4
  | .ldidx nnn => formatNNN 0xA#4 nnn
  | .jpv0 nnn => formatNNN 0xB#4 nnn
  | .rnd x nn => formatXNN 0xC#4 x nn
  | .drw x y n => formatXYN 0xD#4 x y n
  | .skp x => formatXNN 0xE#4 x 0x9E#8
  | .sknp x => formatXNN 0xE#4 x 0xA1#8
  | .gdt x => formatXNN 0xF#4 x 0x07#8
  | .sdt x => formatXNN 0xF#4 x 0x15#8
  | .sst x => formatXNN 0xF#4 x 0x18#8
  | .addidx x => formatXNN 0xF#4 x 0x1E#8
  | .bcd x => formatXNN 0xF#4 x 0x33#8
  | .stm x => formatXNN 0xF#4 x 0x55#8
  | .ldm x => formatXNN 0xF#4 x 0x65#8

/-- The two bytes of an instruction as memory holds them. -/
def encodeBytes (i : Instr) : List Byte := [highByte (encode i), lowByte (encode i)]

/-! ### The opcode table as data -/

/-- A row of the table of R66: a word `w` matches it when `w & mask = match`. -/
structure OpcodeRow where
  mnemonic : String
  pattern : Word
  mask : Word
deriving DecidableEq, Repr

/-- The word matches the row (R66). -/
def OpcodeRow.matchesWord (r : OpcodeRow) (w : Word) : Bool := w &&& r.mask == r.pattern

/-- The 30 rows of R66, in order. -/
def opcodeTable : List OpcodeRow := [
  ⟨"CLS", 0x00E0, 0xFFFF⟩, ⟨"RET", 0x00EE, 0xFFFF⟩, ⟨"JP", 0x1000, 0xF000⟩, ⟨"CALL", 0x2000, 0xF000⟩,
  ⟨"SE", 0x3000, 0xF000⟩, ⟨"SNE", 0x4000, 0xF000⟩, ⟨"LDI", 0x6000, 0xF000⟩, ⟨"ADDI", 0x7000, 0xF000⟩,
  ⟨"MOV", 0x8000, 0xF00F⟩, ⟨"OR", 0x8001, 0xF00F⟩, ⟨"AND", 0x8002, 0xF00F⟩, ⟨"XOR", 0x8003, 0xF00F⟩,
  ⟨"ADD", 0x8004, 0xF00F⟩, ⟨"SUB", 0x8005, 0xF00F⟩, ⟨"SHR", 0x8006, 0xF00F⟩, ⟨"SUBN", 0x8007, 0xF00F⟩,
  ⟨"SHL", 0x800E, 0xF00F⟩, ⟨"LDIDX", 0xA000, 0xF000⟩, ⟨"JPV0", 0xB000, 0xF000⟩, ⟨"RND", 0xC000, 0xF000⟩,
  ⟨"DRW", 0xD000, 0xF000⟩, ⟨"SKP", 0xE09E, 0xF0FF⟩, ⟨"SKNP", 0xE0A1, 0xF0FF⟩, ⟨"GDT", 0xF007, 0xF0FF⟩,
  ⟨"SDT", 0xF015, 0xF0FF⟩, ⟨"SST", 0xF018, 0xF0FF⟩, ⟨"ADDIDX", 0xF01E, 0xF0FF⟩, ⟨"BCD", 0xF033, 0xF0FF⟩,
  ⟨"STM", 0xF055, 0xF0FF⟩, ⟨"LDM", 0xF065, 0xF0FF⟩]

/-! ### The host's reading of a table word -/

/-- The word a row of spec/opcode_table.json stands for: `nbits` bits of `w`, every bit above them 0. -/
def tableWord (nbits w : Nat) : Word := BitVec.ofNat 16 (w % 2 ^ nbits)

/-- The instruction the decoder reads from an instruction whose bits are `w`, bit 0 the least significant bit of the
word: the word laid out as memory holds it, given to `decode`. -/
def decodeTableWord (nbits w : Nat) : Option Instr :=
  match decode [highByte (tableWord nbits w), lowByte (tableWord nbits w)] with
  | .ok (i, _) => some i
  | .error _ => none

end Sys2Proof
end

