-- ==== Sys2Proof/Config.lean ====
section
/-! DEFINITION. What an implementation fixes (the parameters of 00_scope.md R3) and the free values: the inputs of a
`Step` for which nothing in State says what the host supplies. -/

namespace Sys2Proof

/-- The 80 bytes of the font table, `FONT[0]` to `FONT[79]` (00_scope.md R3). -/
abbrev Font := Vector Byte 80

/-- The parameters of the machine (00_scope.md R3). They stand in State (`State.params`) as plain data and no event
changes them, so a statement about every state is a statement about every value of the parameters. -/
structure Params where
  /-- `FONT`, open in the spec (decision D13). -/
  font : Font
  /-- `KEYPAD_PRESENT`, open in the spec (decision D10). -/
  keypadPresent : Bool
deriving DecidableEq, Repr

/-- The default table G2 of 93_implementation_defined.md, one glyph a line, ascending digit order (20_memory.md R51).
PRESUMED, unsafe (log 13): the spec marks it general knowledge; no statement rests on these bytes. -/
def Config.defaultFont : Font := #v[
  0xF0, 0x90, 0x90, 0x90, 0xF0,
  0x20, 0x60, 0x20, 0x20, 0x70,
  0xF0, 0x10, 0xF0, 0x80, 0xF0,
  0xF0, 0x10, 0xF0, 0x10, 0xF0,
  0x90, 0x90, 0xF0, 0x10, 0x10,
  0xF0, 0x80, 0xF0, 0x10, 0xF0,
  0xF0, 0x80, 0xF0, 0x90, 0xF0,
  0xF0, 0x10, 0x20, 0x40, 0x40,
  0xF0, 0x90, 0xF0, 0x90, 0xF0,
  0xF0, 0x90, 0xF0, 0x10, 0xF0,
  0xF0, 0x90, 0xF0, 0x90, 0x90,
  0xE0, 0x90, 0xE0, 0x90, 0xE0,
  0xF0, 0x80, 0x80, 0x80, 0xF0,
  0xE0, 0x90, 0x90, 0x90, 0xE0,
  0xF0, 0x80, 0xF0, 0x80, 0xF0,
  0xF0, 0x80, 0xF0, 0x80, 0x80]

/-- The parameters after `State.reset`. DESIGN CHOICE, unsafe (log 10): the keypad is present, as in the conventions
of 95_test_vectors.md ("`KEYPAD_PRESENT` is true unless stated"). -/
def Config.defaultParams : Params := { font := Config.defaultFont, keypadPresent := true }

/-- The free value of the input `keys` of the `n`-th `Step` whose inputs nothing in State supplies (00_scope.md R3:
"free input of each step"; log 12). It has no body: no proof can see a value. -/
opaque Config.freeKeys : Nat → Word

/-- The free value of the input `rnd` of the `n`-th such `Step` (41_load_and_alu.md R101: a free 8-bit value per step;
log 12). It has no body. -/
opaque Config.freeRnd : Nat → Byte

end Sys2Proof
end

