-- ==== Sys2Proof/Machine/State.lean ====
section
/-! DEFINITION. The state of the machine: the ten items of 10_state.md R10, then the model's own fields (the parameters,
the inputs and outputs of the events, the events the host has lined up); and the state right after reset. -/

namespace Sys2Proof.Machine

/-- The two fatal conditions the latch `FAULT` can hold (10_state.md R27). -/
inductive StackFault where
  /-- Raised by `2nnn` when the stack holds 16 entries (60_exceptions.md R151). -/
  | stackOverflow
  /-- Raised by `00EE` when the stack is empty (60_exceptions.md R152). -/
  | stackUnderflow
deriving DecidableEq, Repr

/-- What a `Step` reports to the host (30_encoding.md R68). -/
structure Effect where
  /-- 1 when the instruction executed was `00E0` or `Dxyn`, else 0 (decision D14, log 14). -/
  fbDirty : Bool
  /-- The fault the step raised, if any. -/
  fatal : Option StackFault
deriving DecidableEq, Repr

/-- The `Effect` of every instruction but `00E0`, `Dxyn` and a faulting call or return. -/
def Effect.quiet : Effect := { fbDirty := false, fatal := none }

/-- What `LoadProgram` reports to the host (20_memory.md R53). -/
inductive LoadResult where
  /-- No `LoadProgram` since reset. -/
  | noneYet
  /-- The bytes were copied. -/
  | ok
  /-- More than 3584 bytes: nothing was copied. -/
  | programTooLarge
deriving DecidableEq, Repr

/-- The inputs `keys` and `rnd` of one `Step` (00_scope.md R3; log 12). -/
inductive StepInput where
  /-- The host supplied them. -/
  | given (keys : Word) (rnd : Byte)
  /-- Nothing in State says what the host supplied: the free values number `n` of Config. -/
  | free (n : Nat)
deriving DecidableEq, Repr

/-- What the host can send (00_scope.md R4, R5; 70_reset_and_hazards.md R186). -/
inductive HostEvent where
  /-- One fetch, decode and execute with these inputs (30_encoding.md R62). -/
  | step (keys : Word) (rnd : Byte)
  /-- One timer decrement (60_exceptions.md R160). -/
  | tick
  /-- Initialization (70_reset_and_hazards.md R180). -/
  | reset
  /-- The program load (20_memory.md R52). -/
  | loadProgram (bytes : List Byte)
deriving DecidableEq, Repr

/-- Memory as (address, byte) pairs, strictly rising by address, listing exactly the addresses whose byte differs from
what `Reset` put there (Memory.wf and Memory.background in Machine/Ops.lean; log 20). -/
abbrev Memory := List Host.Cell

/-- Why the machine stops. -/
inductive Fault where
  /-- A `Step` event while `FAULT` holds `f`: no `Step` is enabled (60_exceptions.md R154). Raised by `step` only.
  Safe: the hardware does not go on either. -/
  | halted (f : StackFault)
  /-- `00EE` with `sp` above 16: the entry `STACK[sp - 1]` does not exist. Raised by `execRet` only, in states no run
  reaches (10_state.md R18; log 18). Safe. -/
  | stackPointerOutOfRange
  /-- A `LoadProgram` event after the first `Step` of a run: the host has no such move (70_reset_and_hazards.md R186,
  20_memory.md R54; log 25). Raised by `step` only. Safe: the model has no run that goes on. -/
  | loadAfterFirstStep
deriving DecidableEq, Repr

/-- Why an instruction has no meaning. -/
inductive Refusal where
  /-- The instruction is not modelled. Raised by a refused arm of `exec`; no arm is refused. Safe. -/
  | notModelled (mnemonic : String)
deriving DecidableEq, Repr

/-- The machine. `mem` to `fault` are the ten items of 10_state.md R10; the fields after them are the model's own. -/
structure State where
  /-- `MEM`, 4096 bytes (R24). -/
  mem : Memory
  /-- `V[0]` to `V[15]`; `VF` is `V[15]` (R11, R30). -/
  v : Vector Byte 16
  /-- `I`, the index register (R14). -/
  i : Word
  /-- `pc`, all 16 bits stored (R15). -/
  pc : Word
  /-- `sp`, the number of return addresses the stack holds (R18). -/
  sp : Byte
  /-- `STACK[0]` to `STACK[15]` (R19). -/
  stack : Vector Word 16
  /-- `DT`, the delay timer (R22). -/
  dt : Byte
  /-- `ST`, the sound timer (R23). -/
  st : Byte
  /-- `FB[0]` to `FB[2047]`, by rows: `FB[cy*64 + cx]` is bit `cx` of row `cy` (R25). -/
  fb : Screen
  /-- `FAULT`, `none` is the spec's `None` (R27). -/
  fault : Option StackFault
  /-- The model's own: the `Effect` of the latest `Step`, an output (R28; log 14). -/
  effect : Effect
  /-- The model's own: the answer of the latest `LoadProgram`, an output (20_memory.md R53; log 15). -/
  loadResult : LoadResult
  /-- The model's own: the inputs of the `Step` in progress (00_scope.md R3; log 12). -/
  input : StepInput
  /-- The model's own: the events the host has lined up, oldest first (00_scope.md R4; log 16). -/
  host : List HostEvent
  /-- The model's own: how many `Step`s have drawn free inputs (log 12). -/
  drawn : Nat
  /-- The model's own: a `Step` has begun since the latest `Reset`, which withdraws the host's move `LoadProgram`
  (70_reset_and_hazards.md R186; log 25). -/
  started : Bool
  /-- The parameters, which no event changes (00_scope.md R3). -/
  params : Params
deriving DecidableEq, Repr

/-- The state after `Reset` (10_state.md R33, 70_reset_and_hazards.md R180) of a machine with the parameters `p`. Memory
lists nothing: an unlisted address reads as the reset contents, `FONT` among them. The model's own fields are at the
values of log 22. -/
def State.resetWith (p : Params) : State where
  mem := []
  v := Vector.replicate 16 0
  i := 0
  pc := 0x0200
  sp := 0
  stack := Vector.replicate 16 0
  dt := 0
  st := 0
  fb := Vector.replicate 32 0
  fault := none
  effect := Effect.quiet
  loadResult := .noneYet
  input := .given 0 0
  host := []
  drawn := 0
  started := false
  params := p

/-- The machine right after reset, with the parameters of `Config.defaultParams` (log 10, log 13). -/
def State.reset : State := State.resetWith Config.defaultParams

end Sys2Proof.Machine
end

