-- ==== Sys2Proof/Machine/Ops.lean ====
section
/-! DEFINITION. The named operations over memory, registers, the call stack and the screen; how an instruction ends; and
taking a fault, the one shared operation for it (60_exceptions.md R153). -/

namespace Sys2Proof.Machine

/-! ### Memory (20_memory.md) -/

/-- What an unlisted address reads as: the contents after `Reset`, `FONT[a - 0x050]` in 0x050 to 0x09F, else 0
(20_memory.md R40). -/
def Memory.background (font : Font) (a : Nat) : Byte :=
  if h : 0x50 ≤ a ∧ a < 0xA0 then font[a - 0x50]'(by omega) else 0

/-- The canonical form: addresses strictly rising, all inside the 4096 bytes, and no entry equal to what an unlisted
address reads as. -/
abbrev Memory.wf (font : Font) (m : Memory) : Prop :=
  m.Pairwise (fun c d => c.1 < d.1) ∧ ∀ c ∈ m, c.1 < 4096 ∧ c.2 ≠ Memory.background font c.1

/-- The byte listed for an address, if one is. -/
def Memory.find : Memory → Nat → Option Byte
  | [], _ => none
  | (k, b) :: rest, a => if k = a then some b else Memory.find rest a

/-- List the byte `b` for the address `a`, keeping the order. -/
def Memory.insert (a : Nat) (b : Byte) : Memory → Memory
  | [] => [(a, b)]
  | (k, c) :: rest =>
    if a < k then (a, b) :: (k, c) :: rest
    else if k = a then (a, b) :: rest
    else (k, c) :: Memory.insert a b rest

/-- Take the address `a` out of the list. -/
def Memory.erase (a : Nat) : Memory → Memory
  | [] => []
  | (k, c) :: rest => if k = a then rest else (k, c) :: Memory.erase a rest

/-- `MemRead(a, 1)`: no side effect (20_memory.md R42, R45). -/
def Memory.read (font : Font) (m : Memory) (a : Addr) : Byte :=
  (Memory.find m a.toNat).getD (Memory.background font a.toNat)

/-- `MemWrite(a, 1, b)`: every address is writable (20_memory.md R42, R46). -/
def Memory.write (font : Font) (m : Memory) (a : Addr) (b : Byte) : Memory :=
  if b = Memory.background font a.toNat then Memory.erase a.toNat m else Memory.insert a.toNat b m

/-- `EA(a) = a & 0xFFF` (20_memory.md R41). -/
def ea (a : Word) : Addr := a.setWidth 12

/-- Read one byte of `MEM`. -/
def State.readByte (s : State) (a : Addr) : Byte := Memory.read s.params.font s.mem a

/-- Write one byte of `MEM`. -/
def State.writeByte (s : State) (a : Addr) (b : Byte) : State :=
  { s with mem := Memory.write s.params.font s.mem a b }

/-- Copy bytes to `EA(a)`, `EA(a + 1)`, ... in this order, each address wrapped by itself (20_memory.md R47). -/
def State.writeBytes (s : State) (a : Word) : List Byte → State
  | [] => s
  | b :: rest => State.writeBytes (s.writeByte (ea a) b) (a + 1) rest

/-! ### Registers (10_state.md) -/

/-- `VF` is register 15 (10_state.md R30). -/
def vf : Reg := 15

/-- All registers, in ascending order. -/
def allRegs : List Reg := [0, 1, 2, 3, 4, 5, 6, 7, 8, 9, 10, 11, 12, 13, 14, 15]

/-- Read `V[x]`: no register is hard-wired (10_state.md R11). -/
def State.reg (s : State) (x : Reg) : Byte := s.v[x]

/-- `V[x] <- b`. -/
def State.setReg (s : State) (x : Reg) (b : Byte) : State := { s with v := s.v.set x b }

/-- `I <- a`. -/
def State.setI (s : State) (a : Word) : State := { s with i := a }

/-- `pc <- a`. -/
def State.setPc (s : State) (a : Word) : State := { s with pc := a }

/-- `DT <- b`. -/
def State.setDt (s : State) (b : Byte) : State := { s with dt := b }

/-- `ST <- b`. -/
def State.setSt (s : State) (b : Byte) : State := { s with st := b }

/-- `FB <- f`. -/
def State.setFb (s : State) (f : Screen) : State := { s with fb := f }

/-- The fetch's advance, `pc <- (pc + 2) mod 65536` (10_state.md R16). -/
def State.advancePc (s : State) : State := s.setPc (s.pc + 2)

/-- `skip`: the same advance during execute, on top of the fetch's (30_encoding.md R63). The skipped word is not
looked at. -/
def State.skip (s : State) : State := s.setPc (s.pc + 2)

/-! ### Fetch (30_encoding.md R62) -/

/-- The two bytes at `EA(pc)` and `EA(pc + 1)`, in memory order; the same at an odd `pc` (20_memory.md R44, R47). -/
def State.fetchBytes (s : State) : List Byte := [s.readByte (ea s.pc), s.readByte (ea (s.pc + 1))]

/-! ### The screen (10_state.md R25) -/

/-- All pixels off. -/
def blankScreen : Screen := Vector.replicate 32 0

/-- `FB[k]` of a screen. -/
def pixelOf (f : Screen) (k : Pixel) : Bool := (f[k.val / 64]'(by omega)).getLsbD (k.val % 64)

/-- `FB[k]`. -/
def State.pixel (s : State) (k : Pixel) : Bool := pixelOf s.fb k

/-- The index of the pixel at column `c mod 64` and row `r mod 32`, `cy*64 + cx`. -/
def pixelAt (c r : Nat) : Pixel := ⟨r % 32 * 64 + c % 64, by omega⟩

/-- `FB[k] <- FB[k] ^ 1`. -/
def togglePixel (f : Screen) (k : Pixel) : Screen :=
  f.set (k.val / 64) (f[k.val / 64]'(by omega) ^^^ BitVec.twoPow 64 (k.val % 64)) (by omega)

/-! ### The call stack (10_state.md R18 to R21) -/

/-- `STACK[sp] <- a; sp <- sp + 1`: the part of `Push` after its check (10_state.md R20). -/
def State.pushReturn (s : State) (a : Word) : State :=
  { s with stack := s.stack.setIfInBounds s.sp.toNat a, sp := s.sp + 1 }

/-- `sp <- sp - 1`: the popped slot keeps its value (10_state.md R21). -/
def State.dropReturn (s : State) : State := { s with sp := s.sp - 1 }

/-- `STACK[sp - 1]`, the top entry, where it exists. -/
def State.topReturn (s : State) : Option Word := s.stack[s.sp.toNat - 1]?

/-! ### How an instruction ends -/

/-- Set the `Effect` the step reports. -/
def State.report (s : State) (e : Effect) : State := { s with effect := e }

/-- A `Step` begins, with these inputs (log 12, log 25). -/
def State.beginStep (s : State) (inp : StepInput) : State := { s with input := inp, started := true }

/-- Set what the latest `LoadProgram` reports. -/
def State.answerLoad (s : State) (r : LoadResult) : State := { s with loadResult := r }

/-- The instruction is done and reports (0, None) (30_encoding.md R68). -/
def complete (s : State) : Host.Outcome State Fault Refusal := .next (s.report Effect.quiet)

/-- The instruction is done and reports (1, None): `00E0` and `Dxyn` (30_encoding.md R68, decision D14, log 14). -/
def completeDirty (s : State) : Host.Outcome State Fault Refusal :=
  .next (s.report { fbDirty := true, fatal := none })

/-- `raise f` (60_exceptions.md R153): latch the fault and end the step with `Effect` (0, f). Nothing else is saved or
changed; `pc` keeps the value the fetch gave it; there is no handler and no return from it (R155; decision D8, log 8). -/
def raise (f : StackFault) (s : State) : Host.Outcome State Fault Refusal :=
  .next { s with fault := some f, effect := { fbDirty := false, fatal := some f } }

end Sys2Proof.Machine
end

