-- ==== Sys2Proof/Machine/Operands.lean ====
section
/-! DEFINITION. The operand forms (30_encoding.md R69, 42_index_and_memory.md R112): zero-extended immediates and
registers, the bytes at `EA(I + k)`, runs of registers, the sprite of `Dxyn`, and the inputs of a step. -/

namespace Sys2Proof.Machine

/-- `zext_16(nnn)` (R69). -/
def zextAddr (nnn : Addr) : Word := nnn.setWidth 16

/-- `zext_16(b)` of an 8-bit register. -/
def zextByte (b : Byte) : Word := b.setWidth 16

/-- `EA(I + k)`, the sum formed in 16 bits and then masked (42_index_and_memory.md R112, 20_memory.md R41). -/
def State.indexAddr (s : State) (k : Nat) : Addr := ea (s.i + BitVec.ofNat 16 k)

/-- `MemRead(EA(I + k), 1)`. -/
def State.readIndexed (s : State) (k : Nat) : Byte := s.readByte (s.indexAddr k)

/-- `MemWrite(EA(I + k), 1, b)`. -/
def State.writeIndexed (s : State) (k : Nat) (b : Byte) : State := s.writeByte (s.indexAddr k) b

/-- The registers `V[0]` to `V[x]`, ascending (`Fx55`, `Fx65`). -/
def regsUpTo (x : Reg) : List Reg := allRegs.take (x.val + 1)

/-- The input `keys` of the step (44_keypad_and_timers.md R135). -/
def State.keys (s : State) : Word :=
  match s.input with
  | .given k _ => k
  | .free n => Config.freeKeys n

/-- The input `rnd` of the step (41_load_and_alu.md R101). -/
def State.rnd (s : State) : Byte :=
  match s.input with
  | .given _ r => r
  | .free n => Config.freeRnd n

/-- The key a register value selects: `V[x] mod 16` (44_keypad_and_timers.md R135, decision D11, log 11). -/
def keyNumber (b : Byte) : Nat := b.toNat % 16

/-- `keys[V[x] mod 16] = 1`. -/
def State.keyPressed (s : State) (x : Reg) : Bool := s.keys.getLsbD (keyNumber (s.reg x))

/-- The column of the sprite's origin, `V[x] mod 64` (43_display.md R121). -/
def State.spriteColumn (s : State) (x : Reg) : Nat := (s.reg x).toNat % 64

/-- The row of the sprite's origin, `V[y] mod 32` (43_display.md R121). -/
def State.spriteRow (s : State) (y : Reg) : Nat := (s.reg y).toNat % 32

/-- The pixels the sprite's 1 bits stand on, in the order of R121's loops: rows 0 to `n - 1` from `EA(I + row)`, in
each the bits from the most significant on, every column taken modulo 64 and every row modulo 32. -/
def State.spritePixels (s : State) (x y : Reg) (n : BitVec 4) : List Pixel :=
  (List.range n.toNat).flatMap fun row =>
    (List.range 8).filterMap fun col =>
      if (s.readIndexed row).getLsbD (7 - col) then
        some (pixelAt (s.spriteColumn x + col) (s.spriteRow y + row))
      else none

end Sys2Proof.Machine
end

