-- ==== Sys2Proof/Machine/Flags.lean ====
section
/-! DEFINITION. The flag computations (10_state.md R31, 41_load_and_alu.md R102) and the order in which result and flag
are written (R103). -/

namespace Sys2Proof.Machine

/-- A flag as the 8 bits `VF` gets: 0x00 or 0x01 (10_state.md R31). -/
def flagByte (f : Bool) : Byte := if f then 1 else 0

/-- Carry of `8xy4`: `a + b > 255` (R102). -/
def carryOut (a b : Byte) : Bool := decide (255 < a.toNat + b.toNat)

/-- No borrow of `a - b`: `a ≥ b` (R102). -/
def noBorrow (a b : Byte) : Bool := decide (b.toNat ≤ a.toNat)

/-- The bit a shift right moves out: `b mod 2` (R102). -/
def shiftedOutRight (b : Byte) : Bool := decide (b.toNat % 2 = 1)

/-- The bit a shift left moves out: `b div 128` (R102). -/
def shiftedOutLeft (b : Byte) : Bool := decide (b.toNat / 128 = 1)

/-- Result to `V[x]` first, then the flag to `VF`, so that with `x = F` the flag stays (41_load_and_alu.md R103,
decision D6, log 6). Both were computed from the old operands. -/
def State.setResultAndFlag (s : State) (x : Reg) (result : Byte) (flag : Bool) : State :=
  (s.setReg x result).setReg vf (flagByte flag)

/-- One toggle of a sprite and the collision so far: set when the pixel was on (43_display.md R121). -/
def drawPixel (acc : Screen × Bool) (k : Pixel) : Screen × Bool :=
  (togglePixel acc.1 k, acc.2 || pixelOf acc.1 k)

/-- The screen after toggling the pixels in order, and whether any of them went from on to off. -/
def drawPixels (f : Screen) (ks : List Pixel) : Screen × Bool := ks.foldl drawPixel (f, false)

end Sys2Proof.Machine
end

