-- ==== Sys2Proof/Machine/Control.lean ====
section
/-! DEFINITION. The control transfers (40_control_flow.md). `pc` already holds the address of the next instruction. -/

namespace Sys2Proof.Machine

/-- `00EE` (R80). With `sp` above 16, which no run reaches, there is no entry to pop (log 18). -/
def execRet (s : State) : Host.Outcome State Fault Refusal :=
  if s.sp = 0 then raise .stackUnderflow s
  else match s.topReturn with
    | some a => complete (s.dropReturn.setPc a)
    | none => .fault .stackPointerOutOfRange

/-- `1nnn` (R81). -/
def execJp (nnn : Addr) (s : State) : Host.Outcome State Fault Refusal :=
  complete (s.setPc (zextAddr nnn))

/-- `2nnn` (R82): the pushed value is the advanced `pc`, all 16 bits. -/
def execCall (nnn : Addr) (s : State) : Host.Outcome State Fault Refusal :=
  if 16 ≤ s.sp.toNat then raise .stackOverflow s
  else complete ((s.pushReturn s.pc).setPc (zextAddr nnn))

/-- `3xnn` (R83). -/
def execSe (x : Reg) (nn : Byte) (s : State) : Host.Outcome State Fault Refusal :=
  complete (if s.reg x = nn then s.skip else s)

/-- `4xnn` (R84). -/
def execSne (x : Reg) (nn : Byte) (s : State) : Host.Outcome State Fault Refusal :=
  complete (if s.reg x ≠ nn then s.skip else s)

/-- `Bnnn` (R85): always `V[0]`; the sum is stored unmasked. -/
def execJpv0 (nnn : Addr) (s : State) : Host.Outcome State Fault Refusal :=
  complete (s.setPc (zextAddr nnn + zextByte (s.reg 0)))

end Sys2Proof.Machine
end

