-- ==== Sys2Proof/Machine/Display.lean ====
section
/-! DEFINITION. The display instructions (43_display.md). -/

namespace Sys2Proof.Machine

/-- `00E0` (R120). -/
def execCls (s : State) : Host.Outcome State Fault Refusal :=
  completeDirty (s.setFb blankScreen)

/-- `Dxyn` (R121): toggle the sprite's pixels, then `VF` gets the collision, also when nothing was drawn. The position
is read before `VF` is written. -/
def execDrw (x y : Reg) (n : BitVec 4) (s : State) : Host.Outcome State Fault Refusal :=
  let drawn := drawPixels s.fb (s.spritePixels x y n)
  completeDirty ((s.setFb drawn.1).setReg vf (flagByte drawn.2))

end Sys2Proof.Machine
end

