-- ==== Sys2Proof/Machine/IndexMemory.lean ====
section
/-! DEFINITION. Index register and memory (42_index_and_memory.md). No memory instruction changes `I` (R112, decision
D4, log 4). -/

namespace Sys2Proof.Machine

/-- `Annn` (R110). -/
def execLdidx (nnn : Addr) (s : State) : Host.Outcome State Fault Refusal :=
  complete (s.setI (zextAddr nnn))

/-- `Fx1E` (R111): 16 bits kept, no flag (decision D3, log 3). -/
def execAddidx (x : Reg) (s : State) : Host.Outcome State Fault Refusal :=
  complete (s.setI (s.i + zextByte (s.reg x)))

/-- `Fx33` (R113): hundreds at `I`, tens at `I + 1`, ones at `I + 2`. -/
def execBcd (x : Reg) (s : State) : Host.Outcome State Fault Refusal :=
  let v := s.reg x
  complete (((s.writeIndexed 0 (v / 100)).writeIndexed 1 (v / 10 % 10)).writeIndexed 2 (v % 10))

/-- The stores of `Fx55`, in order. -/
def State.storeRegs (s : State) : List Reg → State
  | [] => s
  | k :: rest => State.storeRegs (s.writeIndexed k (s.reg k)) rest

/-- The loads of `Fx65`, in order. -/
def State.loadRegs (s : State) : List Reg → State
  | [] => s
  | k :: rest => State.loadRegs (s.setReg k (s.readIndexed k)) rest

/-- `Fx55` (R114): `V[0]` to `V[x]` to `EA(I)` to `EA(I + x)`. -/
def execStm (x : Reg) (s : State) : Host.Outcome State Fault Refusal :=
  complete (s.storeRegs (regsUpTo x))

/-- `Fx65` (R115): `V[0]` to `V[x]` from `EA(I)` to `EA(I + x)`. -/
def execLdm (x : Reg) (s : State) : Host.Outcome State Fault Refusal :=
  complete (s.loadRegs (regsUpTo x))

end Sys2Proof.Machine
end

