-- ==== Sys2Proof/Machine/KeypadTimer.lean ====
section
/-! DEFINITION. Keypad and timer instructions (44_keypad_and_timers.md). Without a keypad both key instructions are
no-ops (R135, decision D10, log 10). -/

namespace Sys2Proof.Machine

/-- `Ex9E` (R130). -/
def execSkp (x : Reg) (s : State) : Host.Outcome State Fault Refusal :=
  complete (if s.params.keypadPresent && s.keyPressed x then s.skip else s)

/-- `ExA1` (R131). -/
def execSknp (x : Reg) (s : State) : Host.Outcome State Fault Refusal :=
  complete (if s.params.keypadPresent && !s.keyPressed x then s.skip else s)

/-- `Fx07` (R132). -/
def execGdt (x : Reg) (s : State) : Host.Outcome State Fault Refusal :=
  complete (s.setReg x s.dt)

/-- `Fx15` (R133). -/
def execSdt (x : Reg) (s : State) : Host.Outcome State Fault Refusal :=
  complete (s.setDt (s.reg x))

/-- `Fx18` (R134). -/
def execSst (x : Reg) (s : State) : Host.Outcome State Fault Refusal :=
  complete (s.setSt (s.reg x))

end Sys2Proof.Machine
end

