-- ==== Sys2Proof/Machine/LoadAlu.lean ====
section
/-! DEFINITION. Load, arithmetic, logic, shift and random (41_load_and_alu.md). Every source is read before anything is
written (R103). -/

namespace Sys2Proof.Machine

/-- `6xnn` (R90). -/
def execLdi (x : Reg) (nn : Byte) (s : State) : Host.Outcome State Fault Refusal :=
  complete (s.setReg x nn)

/-- `7xnn` (R91): wraps, no flag. -/
def execAddi (x : Reg) (nn : Byte) (s : State) : Host.Outcome State Fault Refusal :=
  complete (s.setReg x (s.reg x + nn))

/-- `8xy0` (R92). -/
def execMov (x y : Reg) (s : State) : Host.Outcome State Fault Refusal :=
  complete (s.setReg x (s.reg y))

/-- `8xy1` (R93): `VF` is not written (decision D5, log 5). -/
def execOr (x y : Reg) (s : State) : Host.Outcome State Fault Refusal :=
  complete (s.setReg x (s.reg x ||| s.reg y))

/-- `8xy2` (R94): `VF` is not written (log 5). -/
def execAnd (x y : Reg) (s : State) : Host.Outcome State Fault Refusal :=
  complete (s.setReg x (s.reg x &&& s.reg y))

/-- `8xy3` (R95): `VF` is not written (log 5). -/
def execXor (x y : Reg) (s : State) : Host.Outcome State Fault Refusal :=
  complete (s.setReg x (s.reg x ^^^ s.reg y))

/-- `8xy4` (R96). -/
def execAdd (x y : Reg) (s : State) : Host.Outcome State Fault Refusal :=
  complete (s.setResultAndFlag x (s.reg x + s.reg y) (carryOut (s.reg x) (s.reg y)))

/-- `8xy5` (R97). -/
def execSub (x y : Reg) (s : State) : Host.Outcome State Fault Refusal :=
  complete (s.setResultAndFlag x (s.reg x - s.reg y) (noBorrow (s.reg x) (s.reg y)))

/-- `8xy6` (R98): `V[y]` is shifted. -/
def execShr (x y : Reg) (s : State) : Host.Outcome State Fault Refusal :=
  complete (s.setResultAndFlag x (s.reg y >>> 1) (shiftedOutRight (s.reg y)))

/-- `8xy7` (R99). -/
def execSubn (x y : Reg) (s : State) : Host.Outcome State Fault Refusal :=
  complete (s.setResultAndFlag x (s.reg y - s.reg x) (noBorrow (s.reg y) (s.reg x)))

/-- `8xyE` (R100): `V[y]` is shifted. -/
def execShl (x y : Reg) (s : State) : Host.Outcome State Fault Refusal :=
  complete (s.setResultAndFlag x (s.reg y <<< 1) (shiftedOutLeft (s.reg y)))

/-- `Cxnn` (R101): the random byte is the step's input. -/
def execRnd (x : Reg) (nn : Byte) (s : State) : Host.Outcome State Fault Refusal :=
  complete (s.setReg x (s.rnd &&& nn))

end Sys2Proof.Machine
end

