-- ==== Sys2Proof/Machine/Events.lean ====
section
/-! DEFINITION. The unrecognized word, and the host's events other than `Step`: `Tick`, `Reset`, `LoadProgram`. -/

namespace Sys2Proof.Machine

/-- An unrecognized word does nothing after the fetch's advance (45_unrecognized.md R140). -/
def execUnrecognized (s : State) : Host.Outcome State Fault Refusal := complete s

/-- A timer decremented by 1, clamped at 0 (60_exceptions.md R160). -/
def tickTimer (t : Byte) : Byte := if t = 0 then 0 else t - 1

/-- `Tick`: enabled in every state, writes `DT` and `ST` only (60_exceptions.md R160, R154; decision D9, log 9). -/
def tick (s : State) : State := { s with dt := tickTimer s.dt, st := tickTimer s.st }

/-- `Reset`: enabled in every state, every item of R10 to its reset value (70_reset_and_hazards.md R180); a new run
begins, whose first `Step` is still to come. What the host
has lined up, the counter of free inputs and the parameters are not the core's and stay (log 23). -/
def resetEvent (s : State) : State :=
  { State.resetWith s.params with host := s.host, drawn := s.drawn }

/-- `LoadProgram(bytes)`: the bytes from 0x200 on, or nothing when they do not fit (20_memory.md R52, R53; decision D15,
log 15). -/
def loadProgram (bytes : List Byte) (s : State) : State :=
  if programFits bytes then (s.writeBytes 0x0200 bytes).answerLoad .ok
  else s.answerLoad .programTooLarge

/-- The `LoadProgram` event: a move the host has before the first `Step` of a run and not after it
(70_reset_and_hazards.md R186, 20_memory.md R54; log 25). -/
def loadEvent (bytes : List Byte) (s : State) : Host.Outcome State Fault Refusal :=
  if s.started then .fault .loadAfterFirstStep else .next (loadProgram bytes s)

end Sys2Proof.Machine
end

