-- ==== Sys2Proof/Machine/Step.lean ====
section
/-! DEFINITION. One event of the host (00_scope.md R4), and how the host places an instruction for the next step. -/

namespace Sys2Proof.Machine

/-- The `Step` event (30_encoding.md R62): fetch, advance `pc`, decode, execute. Not enabled while a fault is latched
(60_exceptions.md R154). The inputs stand in `s.input`. -/
def runStep (s : State) : Host.Outcome State Fault Refusal :=
  match s.fault with
  | some f => .fault (.halted f)
  | none =>
    match decode s.fetchBytes with
    | .ok (i, _) => exec i s.advancePc
    | .error _ => execUnrecognized s.advancePc

/-- The next event: the oldest the host has lined up, or, with none lined up, a `Step` whose inputs are free
(00_scope.md R3, R4; log 12, log 16). -/
def step (s : State) : Host.Outcome State Fault Refusal :=
  match s.host with
  | [] => runStep ({ s with drawn := s.drawn + 1 }.beginStep (.free s.drawn))
  | .step keys rnd :: rest => runStep ({ s with host := rest }.beginStep (.given keys rnd))
  | .tick :: rest => .next (tick { s with host := rest })
  | .reset :: rest => .next (resetEvent { s with host := rest })
  | .loadProgram bytes :: rest => loadEvent bytes { s with host := rest }

/-- The events from the first `Step` on. -/
def stepsFirst : List HostEvent → List HostEvent
  | [] => []
  | .step keys rnd :: rest => .step keys rnd :: rest
  | _ :: rest => stepsFirst rest

/-- The state with the table's word at the address `step` fetches next. What else the fetch needs: no fault latched, and
no other event of the host's before its next `Step` (after `State.reset` neither changes anything; log 19). -/
def State.withFetchWord (s : State) (nbits w : Nat) : State :=
  { (s.writeByte (ea s.pc) (highByte (tableWord nbits w))).writeByte (ea (s.pc + 1)) (lowByte (tableWord nbits w)) with
    fault := none, host := stepsFirst s.host }

end Sys2Proof.Machine
end

