-- ==== Sys2Proof/Safety.lean ====
section
/-! DEFINITION. What counts as a safe state, what an instruction may leave unchanged, and the spec's own descriptions in
the terms the statements use. -/

namespace Sys2Proof.Machine

/-! ### The invariant -/

/-- The invariant of the machine: memory in canonical form; `sp` counts 0 to 16 entries (10_state.md R18); a latched
fault is one its condition allows (60_exceptions.md R151, R152); the `Effect` of the latest step carries the latch
(30_encoding.md R68); and a fault is latched only after a `Step` has begun (60_exceptions.md R150). -/
structure State.Inv (s : State) : Prop where
  memory : Memory.wf s.params.font s.mem
  sp_le : s.sp.toNat ≤ 16
  overflow : s.fault = some .stackOverflow → s.sp = 16
  underflow : s.fault = some .stackUnderflow → s.sp = 0
  fatal : s.effect.fatal = s.fault
  latched : s.fault ≠ none → s.started = true

/-- An outcome that is a next state. -/
def Completes (o : Host.Outcome State Fault Refusal) : Prop := ∃ t, o = .next t

/-! ### What is unchanged from `s` to `t` -/

/-- Every register reads as before. -/
def KeepsRegs (s t : State) : Prop := ∀ r : Reg, t.reg r = s.reg r

/-- Every byte of memory reads as before. -/
def KeepsMem (s t : State) : Prop := ∀ a : Addr, t.readByte a = s.readByte a

/-- Every pixel reads as before. -/
def KeepsScreen (s t : State) : Prop := ∀ k : Pixel, t.pixel k = s.pixel k

/-- Both timers are as before. -/
def KeepsTimers (s t : State) : Prop := t.dt = s.dt ∧ t.st = s.st

/-- The stack pointer and every stack entry are as before. -/
def KeepsStack (s t : State) : Prop := t.sp = s.sp ∧ ∀ k : Fin 16, t.stack[k] = s.stack[k]

/-- The parameters, the host's side of the machine and the answer of the latest load are as before. -/
def KeepsHostSide (s t : State) : Prop :=
  t.params = s.params ∧ t.host = s.host ∧ t.drawn = s.drawn ∧ t.input = s.input ∧ t.loadResult = s.loadResult ∧
  t.started = s.started

/-- Everything but `pc`, the general registers and the reported `Effect` is as before. -/
def KeepsAllButRegs (s t : State) : Prop :=
  KeepsMem s t ∧ t.i = s.i ∧ KeepsStack s t ∧ KeepsTimers s t ∧ KeepsScreen s t ∧ t.fault = s.fault ∧ KeepsHostSide s t

/-- Everything but `pc`, memory and the reported `Effect` is as before. -/
def KeepsAllButMem (s t : State) : Prop :=
  KeepsRegs s t ∧ t.i = s.i ∧ KeepsStack s t ∧ KeepsTimers s t ∧ KeepsScreen s t ∧ t.fault = s.fault ∧ KeepsHostSide s t

/-- Everything but `pc` and the reported `Effect` is as before. -/
def KeepsAllButPc (s t : State) : Prop := KeepsRegs s t ∧ KeepsAllButRegs s t

/-! ### The spec's descriptions -/

/-- The state of 10_state.md R33, in a machine with the parameters `p`. -/
structure AfterReset (p : Params) (t : State) : Prop where
  font : ∀ (a : Addr) (h : 0x50 ≤ a.toNat ∧ a.toNat < 0xA0), t.readByte a = p.font[a.toNat - 0x50]'(by omega)
  zero : ∀ a : Addr, a.toNat < 0x50 ∨ 0xA0 ≤ a.toNat → t.readByte a = 0
  regs : ∀ r : Reg, t.reg r = 0
  i : t.i = 0
  pc : t.pc = 0x0200
  sp : t.sp = 0
  stack : ∀ k : Fin 16, t.stack[k] = 0
  dt : t.dt = 0
  st : t.st = 0
  screen : ∀ k : Pixel, t.pixel k = false
  fault : t.fault = none

/-- The sprite of `Dxyn` has a 1 bit on the pixel `k`: some row below `n` and some column below 8, the row's byte at
`EA(I + row)` with bit `7 - column` set, at column `(V[x] mod 64 + column) mod 64` and row `(V[y] mod 32 + row) mod 32`
(43_display.md R121). -/
def SpriteCovers (s : State) (x y : Reg) (n : BitVec 4) (k : Pixel) : Prop :=
  ∃ row col : Nat, row < n.toNat ∧ col < 8 ∧
    (s.readByte (ea (s.i + BitVec.ofNat 16 row))).getLsbD (7 - col) = true ∧
    k.val = ((s.reg y).toNat % 32 + row) % 32 * 64 + ((s.reg x).toNat % 64 + col) % 64

/-- The `pc` an instruction leaves, the table of 10_state.md R16, from the state after the fetch (where `pc` is the
table's `a + 2`). A condition of `Ex9E` or `ExA1` holds only with the keypad present (44_keypad_and_timers.md R135). -/
def pcAfter (i : Instr) (s : State) : Word :=
  match i with
  | .ret => if s.sp = 0 then s.pc else s.stack[s.sp.toNat - 1]?.getD 0
  | .jp nnn => nnn.setWidth 16
  | .call nnn => if 16 ≤ s.sp.toNat then s.pc else nnn.setWidth 16
  | .se x nn => if s.reg x = nn then s.pc + 2 else s.pc
  | .sne x nn => if s.reg x ≠ nn then s.pc + 2 else s.pc
  | .skp x => if s.params.keypadPresent ∧ s.keys.getLsbD ((s.reg x).toNat % 16) = true then s.pc + 2 else s.pc
  | .sknp x => if s.params.keypadPresent ∧ s.keys.getLsbD ((s.reg x).toNat % 16) = false then s.pc + 2 else s.pc
  | .jpv0 nnn => nnn.setWidth 16 + (s.reg 0).setWidth 16
  | _ => s.pc

/-- The instruction can raise a stack fault in this state (60_exceptions.md R150). -/
def Raises (i : Instr) (s : State) : Option StackFault :=
  match i with
  | .call _ => if 16 ≤ s.sp.toNat then some .stackOverflow else none
  | .ret => if s.sp = 0 then some .stackUnderflow else none
  | _ => none

/-- The registers an instruction may write, the right column of the table of 10_state.md R13. -/
def WritesReg (i : Instr) (r : Reg) : Prop :=
  match i with
  | .ldi x _ | .addi x _ | .mov x _ | .or x _ | .and x _ | .xor x _ | .rnd x _ | .gdt x => r = x
  | .add x _ | .sub x _ | .subn x _ | .shr x _ | .shl x _ => r = x ∨ r = 15
  | .drw _ _ _ => r = 15
  | .ldm x => r.val ≤ x.val
  | _ => False

/-- The instruction is `00E0` or `Dxyn`. -/
def isDisplay : Instr → Bool
  | .cls | .drw _ _ _ => true
  | _ => false

/-- The next event is a `Step` with the inputs `inp`, and `s'` is the state in which it begins: the host's oldest event
is a `Step`, or it has none lined up and the inputs are free (00_scope.md R3, R4; log 12, log 16). The run has then
started (log 25). -/
def BeginsStep (s : State) (inp : StepInput) (s' : State) : Prop :=
  (s.host = [] ∧ inp = .free s.drawn ∧ s' = { s with input := inp, drawn := s.drawn + 1, started := true }) ∨
  (∃ keys rnd rest, s.host = .step keys rnd :: rest ∧ inp = .given keys rnd ∧
    s' = { s with input := inp, host := rest, started := true })

end Sys2Proof.Machine
end

