-- ==== Sys2Proof/Certificates/Slice0/Obligations.lean ====
section
/-! DEFINITION. The statements for the provers. An instruction's statement is about `exec` in the state after the fetch:
`s.pc` is the address of the next instruction. -/

open Sys2Proof Sys2Proof.Machine

/-! ### Encoding -/

/-- Decoding the two bytes of any instruction gives it back, and leaves the bytes after it (30_encoding.md section 1 and
3). Every `Instr` is well formed. That the two bytes are big-endian is the spec's decision D1 (log 1). -/
def Obligations.DecodeOfEncodeIsTheInstruction : Prop :=
  ∀ (i : Instr) (rest : List Byte), i.wellFormed = true ∧ decode (encodeBytes i ++ rest) = .ok (i, rest)

/-- A word that decodes to an instruction is that instruction's word: no bit of a recognized word is dropped. That family
0 is selected by the whole word is the spec's decision D20 (log 17). -/
def Obligations.EncodeOfDecodeIsTheWord : Prop :=
  ∀ (w : Word) (i : Instr), decodeWord w = .ok i → encode i = w

/-- The decoder recognizes exactly the words that match a row of the table, and no word matches two rows. That family 0
is selected by the whole word is the spec's decision D20 (log 17). -/
def Obligations.RecognizedWordsAreTheTablesRows : Prop :=
  (∀ w : Word, (∃ i, decodeWord w = .ok i) ↔ ∃ r ∈ opcodeTable, w &&& r.mask = r.pattern) ∧
  (∀ w : Word, ∀ r₁ ∈ opcodeTable, ∀ r₂ ∈ opcodeTable, w &&& r₁.mask = r₁.pattern → w &&& r₂.mask = r₂.pattern → r₁ = r₂)

/-- The classes of unrecognized words, by value (45_unrecognized.md R141 to R146; family 0 by decision D20, log 17). -/
def Obligations.UnrecognizedWordsByClass : Prop :=
  ∀ w : Word,
    (decodeWord w = .error .family0 ↔ w.toNat < 0x1000 ∧ w.toNat ≠ 0x00E0 ∧ w.toNat ≠ 0x00EE) ∧
    (decodeWord w = .error .family5 ↔ 0x5000 ≤ w.toNat ∧ w.toNat ≤ 0x5FFF) ∧
    (decodeWord w = .error .family9 ↔ 0x9000 ≤ w.toNat ∧ w.toNat ≤ 0x9FFF) ∧
    (decodeWord w = .error .family8 ↔ w.toNat / 4096 = 8 ∧ w.toNat % 16 ∈ [0x8, 0x9, 0xA, 0xB, 0xC, 0xD, 0xF]) ∧
    (decodeWord w = .error .familyE ↔ w.toNat / 4096 = 0xE ∧ w.toNat % 256 ∉ [0x9E, 0xA1]) ∧
    (decodeWord w = .error .familyF ↔
      w.toNat / 4096 = 0xF ∧ w.toNat % 256 ∉ [0x07, 0x15, 0x18, 0x1E, 0x33, 0x55, 0x65])

/-- A few words written out from the table of R66 decode to the instructions they stand for. -/
def Obligations.SampleWordsDecode : Prop :=
  decodeWord 0x00E0 = .ok .cls ∧ decodeWord 0x00EE = .ok .ret ∧ decodeWord 0x220A = .ok (.call 0x20A) ∧
  decodeWord 0x4F01 = .ok (.sne 15 0x01) ∧ decodeWord 0x8126 = .ok (.shr 1 2) ∧ decodeWord 0xD012 = .ok (.drw 0 1 2) ∧
  decodeWord 0xE3A1 = .ok (.sknp 3) ∧ decodeWord 0xF21E = .ok (.addidx 2) ∧ decodeWord 0xF265 = .ok (.ldm 2)

/-! ### Fetch, step and memory -/

/-- The fetch reads the bytes at `pc mod 4096` and `(pc + 1) mod 4096`, at any `pc`, odd or above 0x0FFF, and the first is
the high half of the word (20_memory.md sections 2 and 3). The byte order is decision D1 (log 1), the unmasked `pc`
decision D2 (log 2). -/
def Obligations.FetchIsBigEndianAndMasked : Prop :=
  ∀ s : State, ∃ a b : Addr, a.toNat = s.pc.toNat % 4096 ∧ b.toNat = (s.pc.toNat + 1) % 4096 ∧
    s.fetchBytes = [s.readByte a, s.readByte b] ∧
    (wordOfBytes (s.readByte a) (s.readByte b)).toNat = 256 * (s.readByte a).toNat + (s.readByte b).toNat

/-- `EA(a)` is `a` masked to its low 12 bits, `a mod 4096`; the address `I + k`, formed in 16 bits and then masked, is
`(I + k) mod 4096`; and every read and write of an indexed byte goes there. -/
def Obligations.EffectiveAddressMasksTo12Bits : Prop :=
  ∀ (s : State) (a : Word) (k : Nat) (b : Byte), (ea a).toNat = (a &&& 0xFFF).toNat ∧ (ea a).toNat = a.toNat % 4096 ∧
    s.indexAddr k = ea (s.i + BitVec.ofNat 16 k) ∧ (s.indexAddr k).toNat = (s.i.toNat + k) % 4096 ∧
    s.readIndexed k = s.readByte (s.indexAddr k) ∧ s.writeIndexed k b = s.writeByte (s.indexAddr k) b

/-- When a `Step` begins with no fault latched and the bytes at `pc` decode to an instruction, the step is `exec` of it,
`pc` advanced by 2 first (modulo 65536). -/
def Obligations.StepRunsTheDecodedInstruction : Prop :=
  ∀ (s s' : State) (inp : StepInput) (i : Instr) (rest : List Byte), BeginsStep s inp s' → s.fault = none →
    decode s.fetchBytes = .ok (i, rest) → step s = exec i { s' with pc := s.pc + 2 }

/-- When the bytes at `pc` decode to no instruction, the step is a no-op: `pc` advances by 2, nothing else changes, and
the `Effect` is (0, None) (45_unrecognized.md). -/
def Obligations.UnrecognizedWordIsANoOp : Prop :=
  ∀ (s s' : State) (inp : StepInput) (c : Unrecognized), BeginsStep s inp s' → s.fault = none →
    decode s.fetchBytes = .error (.unrecognized c) →
    ∃ t, step s = .next t ∧ t.pc = s.pc + 2 ∧ KeepsAllButPc s' t ∧ t.effect = { fbDirty := false, fatal := none }

/-- While a fault is latched no `Step` is enabled, and a `Tick` acts, as it does in every state (60_exceptions.md section
2; the latch is decision D8, the `Tick` decision D9, the host's queue log 16). -/
def Obligations.LatchStopsStepsAndNotTicks : Prop :=
  (∀ (s s' : State) (inp : StepInput) (f : StackFault), BeginsStep s inp s' → s.fault = some f →
    step s = .fault (.halted f)) ∧
  (∀ (s : State) (rest : List HostEvent), s.host = .tick :: rest → step s = .next (tick { s with host := rest }))

/-- A read gives the byte last written there, every other address reads as before, and writing the same byte twice
equals writing it once (20_memory.md section 3). The canonical form in the premise and the last clause is the model's
own form of memory (log 20); every step keeps it (StepKeepsTheInvariant). -/
def Obligations.MemoryReadsTheLastWrite : Prop :=
  ∀ (s : State) (a : Addr) (b : Byte), Memory.wf s.params.font s.mem →
    (s.writeByte a b).readByte a = b ∧
    (∀ a', a' ≠ a → (s.writeByte a b).readByte a' = s.readByte a') ∧
    (s.writeByte a b).writeByte a b = s.writeByte a b ∧
    Memory.wf (s.writeByte a b).params.font (s.writeByte a b).mem

/-- Two memories in canonical form that read alike at every address are equal data. -/
def Obligations.MemoriesThatReadAlikeAreEqual : Prop :=
  ∀ (font : Font) (m m' : Memory), Memory.wf font m → Memory.wf font m' →
    (∀ a, Memory.read font m a = Memory.read font m' a) → m = m'

/-- A store is seen by the very next fetch, with nothing between: after `Fx55` or `Fx33`, for each of the two fetched
bytes, it is the byte the instruction stored where the fetch address is one of those stored to, and the byte fetched
before elsewhere; and `pc` is where it was (20_memory.md section 4). In the digits of `Fx33`, `100 / 10 ^ j` is the
weight of the digit at `EA(I + j)`. The canonical form of memory is the model's (log 20). -/
def Obligations.StoreIsSeenByTheNextFetch : Prop :=
  ∀ (x : Reg) (s : State), Memory.wf s.params.font s.mem →
    (∃ t, exec (.stm x) s = .next t ∧ t.pc = s.pc ∧ ∀ k < 2,
      (∀ j : Reg, j.val ≤ x.val → ea (s.pc + BitVec.ofNat 16 k) = s.indexAddr j.val →
        t.fetchBytes[k]? = some (s.reg j)) ∧
      ((∀ j : Reg, j.val ≤ x.val → ea (s.pc + BitVec.ofNat 16 k) ≠ s.indexAddr j.val) →
        t.fetchBytes[k]? = s.fetchBytes[k]?)) ∧
    (∃ t, exec (.bcd x) s = .next t ∧ t.pc = s.pc ∧ ∀ k < 2,
      (∀ j < 3, ea (s.pc + BitVec.ofNat 16 k) = s.indexAddr j →
        t.fetchBytes[k]?.map BitVec.toNat = some ((s.reg x).toNat / (100 / 10 ^ j) % 10)) ∧
      ((∀ j < 3, ea (s.pc + BitVec.ofNat 16 k) ≠ s.indexAddr j) → t.fetchBytes[k]? = s.fetchBytes[k]?))

/-! ### The other events -/

/-- A `Tick` event, in every state, answers the next state in which each timer is decremented by 1, clamped at 0, and all
else is as before (60_exceptions.md section 5). That it acts on a halted core too is decision D9 (log 9); that the events
stand in a queue, which moves on, is the model's (log 16). -/
def Obligations.TickDecrementsTheTimers : Prop :=
  ∀ (s : State) (rest : List HostEvent), s.host = .tick :: rest →
    ∃ t, step s = .next t ∧ t.dt.toNat = s.dt.toNat - 1 ∧ t.st.toNat = s.st.toNat - 1 ∧
      t = { s with dt := t.dt, st := t.st, host := rest }

/-- `Reset`, in every state, a halted one included, gives every item its reset value. That the host's queue, the counter
of free inputs and the parameters stay is the model's choice (log 23), as is the mark that a run's first `Step` is still
to come (log 25); that it clears the latch is decision D8. -/
def Obligations.ResetEventInitializes : Prop :=
  ∀ (s : State) (rest : List HostEvent), s.host = .reset :: rest →
    ∃ t, step s = .next t ∧ AfterReset s.params t ∧ t.host = rest ∧ t.drawn = s.drawn ∧ t.params = s.params ∧
      t.started = false

/-- The state right after reset, for every font and with or without a keypad (10_state.md R33); `State.reset` is one of
these. -/
def Obligations.ResetStateIsTheSpecs : Prop :=
  (∀ p : Params, AfterReset p (State.resetWith p)) ∧ ∃ p, State.reset = State.resetWith p

/-- `LoadProgram` of at most 3584 bytes, before the first `Step` of a run, copies them to 0x200 on and changes no other
byte and nothing else but what it reports and the host's queue (20_memory.md section 5, decision D15, log 15). After the
first `Step` the host has no such move (OnlyAHaltedStepOrALateLoadStops, log 25). The canonical form of memory is log 20. -/
def Obligations.LoadProgramCopiesTheBytes : Prop :=
  ∀ (s : State) (bytes : List Byte) (rest : List HostEvent), s.host = .loadProgram bytes :: rest → s.started = false →
    bytes.length ≤ 3584 → Memory.wf s.params.font s.mem →
    ∃ t, step s = .next t ∧
      (∀ (k : Nat) (h : k < bytes.length), t.readByte (BitVec.ofNat 12 (0x200 + k)) = bytes[k]) ∧
      (∀ a : Addr, a.toNat < 0x200 ∨ 0x200 + bytes.length ≤ a.toNat → t.readByte a = s.readByte a) ∧
      t = { s with mem := t.mem, host := rest, loadResult := .ok }

/-- `LoadProgram` of more than 3584 bytes, before the first `Step` of a run, copies nothing: no state of the core
changes, `FAULT` is not set, and ProgramTooLarge is reported (20_memory.md section 5, decision D15, log 15). -/
def Obligations.ProgramTooLargeChangesNothing : Prop :=
  ∀ (s : State) (bytes : List Byte) (rest : List HostEvent), s.host = .loadProgram bytes :: rest → s.started = false →
    3584 < bytes.length →
    step s = .next { s with host := rest, loadResult := .programTooLarge }

/-! ### Control transfer -/

/-- `1nnn`. -/
def Obligations.JpSetsThePc : Prop :=
  ∀ (nnn : Addr) (s : State), decodeWord (BitVec.ofNat 16 (0x1000 + nnn.toNat)) = .ok (.jp nnn) ∧
    ∃ t, exec (.jp nnn) s = .next t ∧ t.pc.toNat = nnn.toNat ∧ KeepsAllButPc s t

/-- `2nnn` with room on the stack. The layout of the stack is decision D7 (log 7). -/
def Obligations.CallPushesTheReturnAddress : Prop :=
  ∀ (nnn : Addr) (s : State), s.sp.toNat < 16 →
    decodeWord (BitVec.ofNat 16 (0x2000 + nnn.toNat)) = .ok (.call nnn) ∧
    ∃ t, exec (.call nnn) s = .next t ∧ t.pc.toNat = nnn.toNat ∧ t.sp.toNat = s.sp.toNat + 1 ∧
      (∀ k : Fin 16, t.stack[k] = if k.val = s.sp.toNat then s.pc else s.stack[k]) ∧
      KeepsRegs s t ∧ KeepsMem s t ∧ t.i = s.i ∧ KeepsTimers s t ∧ KeepsScreen s t ∧ t.fault = s.fault ∧
      KeepsHostSide s t ∧ t.effect = Effect.quiet

/-- `2nnn` with 16 entries on the stack raises StackOverflow and writes nothing. The latch and the kept `pc` are decision
D8 (log 8). -/
def Obligations.CallWithAFullStackRaises : Prop :=
  ∀ (nnn : Addr) (s : State), 16 ≤ s.sp.toNat →
    exec (.call nnn) s = .next { s with fault := some .stackOverflow,
                                        effect := { fbDirty := false, fatal := some .stackOverflow } }

/-- `00EE` with an entry on the stack: `pc` gets all 16 bits of the top entry, which keeps its value. `sp` is at most 16
in every state a run reaches (StepKeepsTheInvariant). The layout of the stack is decision D7 (log 7). -/
def Obligations.RetPopsTheReturnAddress : Prop :=
  ∀ (s : State) (h : 0 < s.sp.toNat ∧ s.sp.toNat ≤ 16),
    decodeWord 0x00EE = .ok .ret ∧
    ∃ t, exec .ret s = .next t ∧ t.pc = s.stack[s.sp.toNat - 1]'(by omega) ∧ t.sp.toNat = s.sp.toNat - 1 ∧
      (∀ k : Fin 16, t.stack[k] = s.stack[k]) ∧
      KeepsRegs s t ∧ KeepsMem s t ∧ t.i = s.i ∧ KeepsTimers s t ∧ KeepsScreen s t ∧ t.fault = s.fault ∧
      KeepsHostSide s t ∧ t.effect = Effect.quiet

/-- `00EE` with an empty stack raises StackUnderflow and writes nothing. The latch and the kept `pc` are decision D8
(log 8). -/
def Obligations.RetWithAnEmptyStackRaises : Prop :=
  ∀ s : State, s.sp = 0 →
    exec .ret s = .next { s with fault := some .stackUnderflow,
                                 effect := { fbDirty := false, fatal := some .stackUnderflow } }

/-- A call and the return that meets its entry come back to the instruction after the call, the stack pointer as
before (95_test_vectors.md S7), wherever the subroutine has moved `pc` and whatever it did to the registers. -/
def Obligations.ReturnUndoesCall : Prop :=
  ∀ (nnn : Addr) (s : State), s.sp.toNat < 16 →
    ∃ t, exec (.call nnn) s = .next t ∧
      ∀ u : State, KeepsStack t u → ∃ r, exec .ret u = .next r ∧ r.pc = s.pc ∧ r.sp = s.sp

/-- `3xnn` and `4xnn`: the skip is `pc <- (pc + 2) mod 65536`, nothing else changes. -/
def Obligations.SeAndSneSkipOnTheComparison : Prop :=
  ∀ (x : Reg) (nn : Byte) (s : State),
    decodeWord (BitVec.ofNat 16 (0x3000 + 256 * x.val + nn.toNat)) = .ok (.se x nn) ∧
    decodeWord (BitVec.ofNat 16 (0x4000 + 256 * x.val + nn.toNat)) = .ok (.sne x nn) ∧
    (∃ t, exec (.se x nn) s = .next t ∧
      t.pc.toNat = (if s.reg x = nn then (s.pc.toNat + 2) % 65536 else s.pc.toNat) ∧
      KeepsAllButPc s t) ∧
    (∃ t, exec (.sne x nn) s = .next t ∧
      t.pc.toNat = (if s.reg x = nn then s.pc.toNat else (s.pc.toNat + 2) % 65536) ∧
      KeepsAllButPc s t)

/-- `Bnnn`: `V[0]` is added to `nnn`; the sum is stored unmasked, up to 0x10FE. -/
def Obligations.Jpv0AddsRegisterZero : Prop :=
  ∀ (nnn : Addr) (s : State), decodeWord (BitVec.ofNat 16 (0xB000 + nnn.toNat)) = .ok (.jpv0 nnn) ∧
    ∃ t, exec (.jpv0 nnn) s = .next t ∧ t.pc.toNat = nnn.toNat + (s.reg 0).toNat ∧ t.pc.toNat ≤ 0x10FE ∧
      KeepsAllButPc s t ∧ t.effect = Effect.quiet

/-- A `1nnn` at the address `nnn`, below 4096, that jumps to itself leaves `pc` and all other state of the core as it was:
the idle loop (40_control_flow.md `1nnn`; the word's byte order is decision D1). -/
def Obligations.JumpToItselfIsIdle : Prop :=
  ∀ (s s' : State) (inp : StepInput) (nnn : Addr), BeginsStep s inp s' → s.fault = none →
    s.pc = nnn.setWidth 16 → decode s.fetchBytes = .ok (.jp nnn, []) →
    ∃ t, step s = .next t ∧ t.pc = s.pc ∧ KeepsAllButPc s' t

/-! ### Load, arithmetic, logic -/

/-- `6xnn`. -/
def Obligations.LdiLoadsTheImmediate : Prop :=
  ∀ (x : Reg) (nn : Byte) (s : State),
    decodeWord (BitVec.ofNat 16 (0x6000 + 256 * x.val + nn.toNat)) = .ok (.ldi x nn) ∧
    ∃ t, exec (.ldi x nn) s = .next t ∧ (∀ r, t.reg r = if r = x then nn else s.reg r) ∧ t.pc = s.pc ∧
      KeepsAllButRegs s t

/-- `7xnn`: wraps modulo 256. That `VF` is not written unless `x = F` is decision D5 (log 5). -/
def Obligations.AddiAddsModulo256 : Prop :=
  ∀ (x : Reg) (nn : Byte) (s : State),
    decodeWord (BitVec.ofNat 16 (0x7000 + 256 * x.val + nn.toNat)) = .ok (.addi x nn) ∧
    ∃ t, exec (.addi x nn) s = .next t ∧
      (∀ r, (t.reg r).toNat = if r = x then ((s.reg x).toNat + nn.toNat) % 256 else (s.reg r).toNat) ∧ t.pc = s.pc ∧
      KeepsAllButRegs s t ∧ t.effect = Effect.quiet

/-- `8xy0`. -/
def Obligations.MovCopiesTheRegister : Prop :=
  ∀ (x y : Reg) (s : State),
    decodeWord (BitVec.ofNat 16 (0x8000 + 256 * x.val + 16 * y.val)) = .ok (.mov x y) ∧
    ∃ t, exec (.mov x y) s = .next t ∧ (∀ r, t.reg r = if r = x then s.reg y else s.reg r) ∧ t.pc = s.pc ∧
      KeepsAllButRegs s t

/-- `8xy1`, `8xy2`, `8xy3`, bit by bit. That `VF` is not written unless `x = F` is decision D5 (log 5). -/
def Obligations.OrAndXorAreBitwise : Prop :=
  ∀ (x y : Reg) (s : State),
    decodeWord (BitVec.ofNat 16 (0x8001 + 256 * x.val + 16 * y.val)) = .ok (.or x y) ∧
    decodeWord (BitVec.ofNat 16 (0x8002 + 256 * x.val + 16 * y.val)) = .ok (.and x y) ∧
    decodeWord (BitVec.ofNat 16 (0x8003 + 256 * x.val + 16 * y.val)) = .ok (.xor x y) ∧
    (∃ t, exec (.or x y) s = .next t ∧
      (∀ r, ∀ k < 8, (t.reg r).getLsbD k =
        if r = x then ((s.reg x).getLsbD k || (s.reg y).getLsbD k) else (s.reg r).getLsbD k) ∧
      t.pc = s.pc ∧ KeepsAllButRegs s t ∧ t.effect = Effect.quiet) ∧
    (∃ t, exec (.and x y) s = .next t ∧
      (∀ r, ∀ k < 8, (t.reg r).getLsbD k =
        if r = x then ((s.reg x).getLsbD k && (s.reg y).getLsbD k) else (s.reg r).getLsbD k) ∧
      t.pc = s.pc ∧ KeepsAllButRegs s t ∧ t.effect = Effect.quiet) ∧
    (∃ t, exec (.xor x y) s = .next t ∧
      (∀ r, ∀ k < 8, (t.reg r).getLsbD k =
        if r = x then ((s.reg x).getLsbD k != (s.reg y).getLsbD k) else (s.reg r).getLsbD k) ∧
      t.pc = s.pc ∧ KeepsAllButRegs s t ∧ t.effect = Effect.quiet)

/-- `8xy4`: sum modulo 256 to `V[x]`, then the carry to `VF`, both from the old operands. That with `x = F` the flag stays
is decision D6 (log 6). -/
def Obligations.AddSumsAndSetsTheCarry : Prop :=
  ∀ (x y : Reg) (s : State),
    decodeWord (BitVec.ofNat 16 (0x8004 + 256 * x.val + 16 * y.val)) = .ok (.add x y) ∧
    ∃ t, exec (.add x y) s = .next t ∧
      (∀ r, (t.reg r).toNat =
        if r = 15 then (if (s.reg x).toNat + (s.reg y).toNat > 255 then 1 else 0)
        else if r = x then ((s.reg x).toNat + (s.reg y).toNat) % 256 else (s.reg r).toNat) ∧
      t.pc = s.pc ∧ KeepsAllButRegs s t ∧ t.effect = Effect.quiet

/-- `8xy5` and `8xy7`: difference modulo 256 to `V[x]`, then "no borrow" to `VF`. That with `x = F` the flag stays is
decision D6 (log 6). -/
def Obligations.SubAndSubnSetNoBorrow : Prop :=
  ∀ (x y : Reg) (s : State),
    decodeWord (BitVec.ofNat 16 (0x8005 + 256 * x.val + 16 * y.val)) = .ok (.sub x y) ∧
    decodeWord (BitVec.ofNat 16 (0x8007 + 256 * x.val + 16 * y.val)) = .ok (.subn x y) ∧
    (∃ t, exec (.sub x y) s = .next t ∧
      (∀ r, (t.reg r).toNat =
        if r = 15 then (if (s.reg x).toNat ≥ (s.reg y).toNat then 1 else 0)
        else if r = x then (if (s.reg x).toNat ≥ (s.reg y).toNat then (s.reg x).toNat - (s.reg y).toNat
          else (s.reg x).toNat + 256 - (s.reg y).toNat)
        else (s.reg r).toNat) ∧
      t.pc = s.pc ∧ KeepsAllButRegs s t ∧ t.effect = Effect.quiet) ∧
    (∃ t, exec (.subn x y) s = .next t ∧
      (∀ r, (t.reg r).toNat =
        if r = 15 then (if (s.reg y).toNat ≥ (s.reg x).toNat then 1 else 0)
        else if r = x then (if (s.reg y).toNat ≥ (s.reg x).toNat then (s.reg y).toNat - (s.reg x).toNat
          else (s.reg y).toNat + 256 - (s.reg x).toNat)
        else (s.reg r).toNat) ∧
      t.pc = s.pc ∧ KeepsAllButRegs s t ∧ t.effect = Effect.quiet)

/-- `8xy6` and `8xyE` shift the old `V[y]` by one bit into `V[x]`, then the bit shifted out goes to `VF`. That with
`x = F` the flag stays is decision D6 (log 6). -/
def Obligations.ShiftsReadVyAndSetTheBitOut : Prop :=
  ∀ (x y : Reg) (s : State),
    decodeWord (BitVec.ofNat 16 (0x8006 + 256 * x.val + 16 * y.val)) = .ok (.shr x y) ∧
    decodeWord (BitVec.ofNat 16 (0x800E + 256 * x.val + 16 * y.val)) = .ok (.shl x y) ∧
    (∃ t, exec (.shr x y) s = .next t ∧
      (∀ r, (t.reg r).toNat =
        if r = 15 then (s.reg y).toNat % 2 else if r = x then (s.reg y).toNat / 2 else (s.reg r).toNat) ∧
      t.pc = s.pc ∧ KeepsAllButRegs s t ∧ t.effect = Effect.quiet) ∧
    (∃ t, exec (.shl x y) s = .next t ∧
      (∀ r, (t.reg r).toNat =
        if r = 15 then (s.reg y).toNat / 128 else if r = x then 2 * (s.reg y).toNat % 256 else (s.reg r).toNat) ∧
      t.pc = s.pc ∧ KeepsAllButRegs s t ∧ t.effect = Effect.quiet)

/-- `Cxnn`: the input `rnd`, whatever it is, masked by `nn`; with `nn = 0` the result is 0. The input is free by
decision D12 (log 12). -/
def Obligations.RndMasksTheRandomInput : Prop :=
  ∀ (x : Reg) (nn : Byte) (s : State),
    decodeWord (BitVec.ofNat 16 (0xC000 + 256 * x.val + nn.toNat)) = .ok (.rnd x nn) ∧
    (∃ t, exec (.rnd x nn) s = .next t ∧
      (∀ r, ∀ k < 8, (t.reg r).getLsbD k = if r = x then (s.rnd.getLsbD k && nn.getLsbD k) else (s.reg r).getLsbD k) ∧
      (nn = 0 → t.reg x = 0) ∧ (nn = 0xFF → t.reg x = s.rnd) ∧
      t.pc = s.pc ∧ KeepsAllButRegs s t ∧ t.effect = Effect.quiet) ∧
    ∀ (keys : Word) (rnd : Byte), { s with input := .given keys rnd }.rnd = rnd

/-! ### Index register and memory -/

/-- `Annn`: the high four bits of `I` become 0. -/
def Obligations.LdidxLoadsTheIndex : Prop :=
  ∀ (nnn : Addr) (s : State), decodeWord (BitVec.ofNat 16 (0xA000 + nnn.toNat)) = .ok (.ldidx nnn) ∧
    ∃ t, exec (.ldidx nnn) s = .next t ∧ t.i.toNat = nnn.toNat ∧ t.pc = s.pc ∧ KeepsRegs s t ∧ KeepsMem s t ∧
      KeepsStack s t ∧ KeepsTimers s t ∧ KeepsScreen s t ∧ t.fault = s.fault ∧ KeepsHostSide s t

/-- `Fx1E`: the sum modulo 65536 is stored unmasked and no flag is written (decision D3, log 3). -/
def Obligations.AddidxAddsModulo65536 : Prop :=
  ∀ (x : Reg) (s : State), decodeWord (BitVec.ofNat 16 (0xF01E + 256 * x.val)) = .ok (.addidx x) ∧
    ∃ t, exec (.addidx x) s = .next t ∧ t.i.toNat = (s.i.toNat + (s.reg x).toNat) % 65536 ∧ t.pc = s.pc ∧
      KeepsRegs s t ∧ KeepsMem s t ∧ KeepsStack s t ∧ KeepsTimers s t ∧ KeepsScreen s t ∧ t.fault = s.fault ∧
      KeepsHostSide s t ∧ t.effect = Effect.quiet

/-- `Fx33`: hundreds, tens and ones of `V[x]` at `EA(I)`, `EA(I + 1)`, `EA(I + 2)`; every other byte and `I` unchanged
(decision D4, log 4). The canonical form of memory is log 20. -/
def Obligations.BcdStoresThreeDigits : Prop :=
  ∀ (x : Reg) (s : State), Memory.wf s.params.font s.mem →
    decodeWord (BitVec.ofNat 16 (0xF033 + 256 * x.val)) = .ok (.bcd x) ∧
    ∃ t, exec (.bcd x) s = .next t ∧
      (t.readByte (s.indexAddr 0)).toNat = (s.reg x).toNat / 100 ∧
      (t.readByte (s.indexAddr 1)).toNat = (s.reg x).toNat / 10 % 10 ∧
      (t.readByte (s.indexAddr 2)).toNat = (s.reg x).toNat % 10 ∧
      (∀ a : Addr, a ≠ s.indexAddr 0 → a ≠ s.indexAddr 1 → a ≠ s.indexAddr 2 → t.readByte a = s.readByte a) ∧
      t.pc = s.pc ∧ KeepsAllButMem s t ∧ t.effect = Effect.quiet

/-- `Fx55`: `V[k]` at `EA(I + k)` for `k` from 0 to `x`; every other byte and `I` unchanged (decision D4, log 4). The
canonical form of memory is log 20. -/
def Obligations.StmStoresTheRegisters : Prop :=
  ∀ (x : Reg) (s : State), Memory.wf s.params.font s.mem →
    decodeWord (BitVec.ofNat 16 (0xF055 + 256 * x.val)) = .ok (.stm x) ∧
    ∃ t, exec (.stm x) s = .next t ∧
      (∀ k : Reg, k.val ≤ x.val → t.readByte (s.indexAddr k.val) = s.reg k) ∧
      (∀ a : Addr, (∀ k : Reg, k.val ≤ x.val → a ≠ s.indexAddr k.val) → t.readByte a = s.readByte a) ∧
      t.pc = s.pc ∧ KeepsAllButMem s t ∧ t.effect = Effect.quiet

/-- `Fx65`: `V[k]` from `EA(I + k)` for `k` from 0 to `x`; the registers above `x`, memory and `I` unchanged (decision D4,
log 4). -/
def Obligations.LdmLoadsTheRegisters : Prop :=
  ∀ (x : Reg) (s : State), decodeWord (BitVec.ofNat 16 (0xF065 + 256 * x.val)) = .ok (.ldm x) ∧
    ∃ t, exec (.ldm x) s = .next t ∧
      (∀ k : Reg, t.reg k = if k.val ≤ x.val then s.readByte (s.indexAddr k.val) else s.reg k) ∧
      t.pc = s.pc ∧ KeepsAllButRegs s t ∧ t.effect = Effect.quiet

/-- `Fx55` then `Fx65` with the same `x` and `I`, whatever happened to `V[0]` to `V[15]` in between, brings `V[0]` to
`V[x]` back (95_test_vectors.md S6). The canonical form of memory is log 20. -/
def Obligations.StmThenLdmRoundTrips : Prop :=
  ∀ (x : Reg) (s : State), Memory.wf s.params.font s.mem →
    ∃ t, exec (.stm x) s = .next t ∧
      ∀ u : State, KeepsMem t u → u.i = t.i → ∃ r, exec (.ldm x) u = .next r ∧ ∀ k : Reg, k.val ≤ x.val → r.reg k = s.reg k

/-! ### Display -/

/-- `00E0`. -/
def Obligations.ClsClearsTheScreen : Prop :=
  ∀ s : State, decodeWord 0x00E0 = .ok .cls ∧
    ∃ t, exec .cls s = .next t ∧ (∀ k : Pixel, t.pixel k = false) ∧ t.pc = s.pc ∧ KeepsRegs s t ∧ KeepsMem s t ∧
      t.i = s.i ∧ KeepsStack s t ∧ KeepsTimers s t ∧ t.fault = s.fault ∧ KeepsHostSide s t ∧
      t.effect = { fbDirty := true, fatal := none }

/-- `Dxyn`: exactly the pixels under the sprite's 1 bits are toggled, and `VF` is 1 if one of them was on before, else 0,
also with `n = 0`. The position is read before `VF` is written (decision D6, log 6); `I` is kept (D4, log 4); the
`Effect` reports a change (D14, log 14). -/
def Obligations.DrwTogglesTheSpriteAndSetsCollision : Prop :=
  ∀ (x y : Reg) (n : BitVec 4) (s : State),
    decodeWord (BitVec.ofNat 16 (0xD000 + 256 * x.val + 16 * y.val + n.toNat)) = .ok (.drw x y n) ∧
    ∃ t, exec (.drw x y n) s = .next t ∧
      (∀ k : Pixel, (SpriteCovers s x y n k → t.pixel k = !s.pixel k) ∧ (¬ SpriteCovers s x y n k → t.pixel k = s.pixel k)) ∧
      ((∃ k : Pixel, SpriteCovers s x y n k ∧ s.pixel k = true) → t.reg 15 = 1) ∧
      ((∀ k : Pixel, SpriteCovers s x y n k → s.pixel k = false) → t.reg 15 = 0) ∧
      (∀ r : Reg, r ≠ 15 → t.reg r = s.reg r) ∧ t.pc = s.pc ∧ KeepsMem s t ∧ t.i = s.i ∧ KeepsStack s t ∧
      KeepsTimers s t ∧ t.fault = s.fault ∧ KeepsHostSide s t ∧ t.effect = { fbDirty := true, fatal := none }

/-- Drawing the same sprite twice at the same place restores every pixel (95_test_vectors.md S4): `x` and `y` other than
F, so that the first draw's flag does not move the second. -/
def Obligations.DrawingTwiceRestoresTheScreen : Prop :=
  ∀ (x y : Reg) (n : BitVec 4) (s : State), x ≠ 15 → y ≠ 15 →
    ∃ t u, exec (.drw x y n) s = .next t ∧ exec (.drw x y n) t = .next u ∧ KeepsScreen s u

/-! ### Keypad and timers -/

/-- `Ex9E` and `ExA1` with the keypad present test the key `V[x] mod 16` (decision D11, log 11), whatever `keys` is. -/
def Obligations.KeySkipsWithAKeypad : Prop :=
  ∀ (x : Reg) (s : State), s.params.keypadPresent = true →
    decodeWord (BitVec.ofNat 16 (0xE09E + 256 * x.val)) = .ok (.skp x) ∧
    decodeWord (BitVec.ofNat 16 (0xE0A1 + 256 * x.val)) = .ok (.sknp x) ∧
    (∃ t, exec (.skp x) s = .next t ∧
      t.pc.toNat = (if s.keys.getLsbD ((s.reg x).toNat % 16) = true then (s.pc.toNat + 2) % 65536 else s.pc.toNat) ∧
      KeepsAllButPc s t ∧ t.effect = Effect.quiet) ∧
    (∃ t, exec (.sknp x) s = .next t ∧
      t.pc.toNat = (if s.keys.getLsbD ((s.reg x).toNat % 16) = true then s.pc.toNat else (s.pc.toNat + 2) % 65536) ∧
      KeepsAllButPc s t ∧ t.effect = Effect.quiet) ∧
    ∀ (keys : Word) (rnd : Byte), { s with input := .given keys rnd }.keys = keys

/-- `Ex9E` and `ExA1` without a keypad are no-ops (decision D10, log 10). -/
def Obligations.KeySkipsWithoutAKeypadAreNoOps : Prop :=
  ∀ (x : Reg) (s : State), s.params.keypadPresent = false →
    (∃ t, exec (.skp x) s = .next t ∧ t.pc = s.pc ∧ KeepsAllButPc s t ∧ t.effect = Effect.quiet) ∧
    (∃ t, exec (.sknp x) s = .next t ∧ t.pc = s.pc ∧ KeepsAllButPc s t ∧ t.effect = Effect.quiet)

/-- `Fx07`, `Fx15` and `Fx18`; and no instruction reads `ST`: under any instruction but `Fx18` two runs that differ
only in `ST` still differ only there, and under `Fx18` they end alike (44_keypad_and_timers.md R132 to R134). -/
def Obligations.TimerRegistersAreReadAndWritten : Prop :=
  ∀ (x : Reg) (s : State),
    decodeWord (BitVec.ofNat 16 (0xF007 + 256 * x.val)) = .ok (.gdt x) ∧
    decodeWord (BitVec.ofNat 16 (0xF015 + 256 * x.val)) = .ok (.sdt x) ∧
    decodeWord (BitVec.ofNat 16 (0xF018 + 256 * x.val)) = .ok (.sst x) ∧
    (∃ t, exec (.gdt x) s = .next t ∧ (∀ r, t.reg r = if r = x then s.dt else s.reg r) ∧ t.pc = s.pc ∧
      KeepsAllButRegs s t) ∧
    (∃ t, exec (.sdt x) s = .next t ∧ t.dt = s.reg x ∧ t.st = s.st ∧ t.pc = s.pc ∧ KeepsRegs s t ∧ KeepsMem s t ∧
      t.i = s.i ∧ KeepsStack s t ∧ KeepsScreen s t ∧ t.fault = s.fault ∧ KeepsHostSide s t) ∧
    (∃ t, exec (.sst x) s = .next t ∧ t.st = s.reg x ∧ t.dt = s.dt ∧ t.pc = s.pc ∧ KeepsRegs s t ∧ KeepsMem s t ∧
      t.i = s.i ∧ KeepsStack s t ∧ KeepsScreen s t ∧ t.fault = s.fault ∧ KeepsHostSide s t) ∧
    (∀ (i : Instr) (b : Byte) (t : State), exec i s = .next t → (∀ z, i ≠ .sst z) →
      exec i { s with st := b } = .next { t with st := b }) ∧
    (∀ b : Byte, exec (.sst x) { s with st := b } = exec (.sst x) s)

/-! ### Whole-machine rules -/

/-- Every instruction completes in every state with `sp` at most 16; nothing stops but the fault latch, which changes
exactly when a call meets a full stack or a return an empty one (60_exceptions.md section 1; the latch is decision D8). -/
def Obligations.OnlyCallAndRetRaise : Prop :=
  ∀ (i : Instr) (s : State), s.sp.toNat ≤ 16 →
    ∃ t, exec i s = .next t ∧ t.effect.fatal = Raises i s ∧ (Raises i s = none → t.fault = s.fault) ∧
      (∀ f, Raises i s = some f → t.fault = some f)

/-- The `Effect` reports a framebuffer change exactly for `00E0` and `Dxyn` (decision D14, log 14). -/
def Obligations.OnlyClsAndDrwReportTheScreenDirty : Prop :=
  ∀ (i : Instr) (s t : State), exec i s = .next t → t.effect.fbDirty = isDisplay i

/-- The `pc` after a `Step` that began at `a = s.pc`: `a + 2` from the fetch, then the table of 10_state.md section 4 for
each instruction, `a + 2` for an unrecognized word. The popped entry is decision D7, the kept `pc` of a fault D8, the keys
D10 and D11. -/
def Obligations.PcAfterEachStep : Prop :=
  ∀ (s s' t : State) (inp : StepInput), BeginsStep s inp s' → s.fault = none → step s = .next t →
    (∀ i rest, decode s.fetchBytes = .ok (i, rest) → t.pc = pcAfter i { s' with pc := s.pc + 2 }) ∧
    (∀ e, decode s.fetchBytes = .error e → t.pc = s.pc + 2)

/-- A register changes only under an instruction that the table of 10_state.md R13 lists as writing it: in particular
`VF` is written by six instructions as a flag and by others only through their own `x` (decision D5, log 5). -/
def Obligations.RegistersChangeOnlyAsTheTableSays : Prop :=
  ∀ (i : Instr) (s t : State) (r : Reg), exec i s = .next t → ¬ WritesReg i r → t.reg r = s.reg r

/-- No instruction but `2nnn` and `00EE` changes `sp` or a stack entry (10_state.md section 6). -/
def Obligations.OnlyCallAndRetMoveTheStack : Prop :=
  ∀ (i : Instr) (s t : State), exec i s = .next t → (∀ nnn, i ≠ .call nnn) → i ≠ .ret → KeepsStack s t

/-- No instruction but `00E0` and `Dxyn` changes a pixel, none but `Annn` and `Fx1E` changes `I`, none but `Fx33` and
`Fx55` changes a byte of memory (10_state.md sections 5 and 8; that `Fx33`, `Fx55`, `Fx65` and `Dxyn` keep `I` is decision
D4, log 4). -/
def Obligations.ScreenIndexAndMemoryHaveTheirWriters : Prop :=
  ∀ (i : Instr) (s t : State), exec i s = .next t →
    (isDisplay i = false → KeepsScreen s t) ∧
    ((∀ nnn, i ≠ .ldidx nnn) → (∀ x, i ≠ .addidx x) → t.i = s.i) ∧
    ((∀ x, i ≠ .bcd x) → (∀ x, i ≠ .stm x) → KeepsMem s t)

/-- `DT` is written by `Fx15` only and `ST` by `Fx18` only; no instruction touches the parameters or the host's side
(10_state.md section 7). -/
def Obligations.TimersHaveTheirWriters : Prop :=
  ∀ (i : Instr) (s t : State), exec i s = .next t →
    ((∀ x, i ≠ .sdt x) → t.dt = s.dt) ∧ ((∀ x, i ≠ .sst x) → t.st = s.st) ∧ KeepsHostSide s t

/-- `rnd` is read by `Cxnn` only and `keys` by `Ex9E` and `ExA1` only: under any other instruction two runs that differ
only in their inputs still differ only there. -/
def Obligations.InputsReachOnlyTheirReaders : Prop :=
  ∀ (i : Instr) (s t : State) (a b : StepInput), (∀ x nn, i ≠ .rnd x nn) → (∀ x, i ≠ .skp x) → (∀ x, i ≠ .sknp x) →
    exec i { s with input := a } = .next t → exec i { s with input := b } = .next { t with input := b }

/-- Without a keypad `keys` reaches nothing at all: two runs whose inputs agree on `rnd` end alike under every
instruction, but for the inputs themselves (decision D10, log 10). -/
def Obligations.KeysReachNothingWithoutAKeypad : Prop :=
  ∀ (i : Instr) (s t : State) (k k' : Word) (r : Byte), s.params.keypadPresent = false →
    exec i { s with input := .given k r } = .next t →
    exec i { s with input := .given k' r } = .next { t with input := .given k' r }

/-- Every event keeps the invariant: memory canonical, `sp` from 0 to 16, the latch consistent with `sp` and reported by
the latest `Effect`, no latch before the first `Step`; and the parameters stay. It rests on decisions D7 and D8 (log 7,
log 8) and on choices of the model: the canonical form of memory (log 20), the held `Effect` (log 14), that a `Reset`
event keeps the parameters and clears the held `Effect` (log 23), and the mark of the first `Step` (log 25). -/
def Obligations.StepKeepsTheInvariant : Prop :=
  ∀ s t : State, s.Inv → step s = .next t → t.Inv ∧ t.params = s.params

/-- The invariant holds after reset, for every font and with or without a keypad. The clause on the held `Effect` rests on
that field's value after reset, which is the model's choice (log 22), and the one on memory on the model's canonical form
(log 20). -/
def Obligations.ResetMeetsTheInvariant : Prop :=
  ∀ p : Params, (State.resetWith p).Inv

/-- From a state that meets the invariant the only stops are a `Step` while a fault is latched and a `LoadProgram` after
the first `Step` of a run, which always stops: no instruction, no address and no word stops the machine (60_exceptions.md
sections 1 and 2, 70_reset_and_hazards.md section 4). The latch is decision D8 (log 8), the withdrawn move log 25. -/
def Obligations.OnlyAHaltedStepOrALateLoadStops : Prop :=
  (∀ s : State, s.Inv → (∃ t, step s = .next t) ∨ (∃ f, s.fault = some f ∧ step s = .fault (.halted f)) ∨
    ∃ bytes rest, s.host = .loadProgram bytes :: rest ∧ s.started = true ∧ step s = .fault .loadAfterFirstStep) ∧
  (∀ (s : State) (bytes : List Byte) (rest : List HostEvent), s.host = .loadProgram bytes :: rest → s.started = true →
    step s = .fault .loadAfterFirstStep)

/-- The latch is sticky: while it holds a fault, an event that goes on leaves it, unless it is `Reset`
(60_exceptions.md section 2, decision D8, log 8). -/
def Obligations.OnlyResetClearsTheLatch : Prop :=
  ∀ (s t : State) (f : StackFault), s.fault = some f → step s = .next t →
    t.fault = some f ∨ ∃ rest, s.host = .reset :: rest
end

