-- ==== Sys2Proof/Laws/Decode.lean ====
section
/-! SUPPORT. The fields of the instruction formats: each field of a word in a format is the operand that was put there. -/

namespace Sys2Proof

/-! ### Formats and fields as numbers -/

theorem toNat_formatNNN (op : BitVec 4) (nnn : Addr) : (formatNNN op nnn).toNat = 4096 * op.toNat + nnn.toNat := by
  unfold formatNNN
  rw [BitVec.toNat_append, ← Nat.shiftLeft_add_eq_or_of_lt nnn.isLt, Nat.shiftLeft_eq]
  omega

theorem toNat_formatXNN (op : BitVec 4) (x : Reg) (nn : Byte) :
    (formatXNN op x nn).toNat = 4096 * op.toNat + 256 * x.val + nn.toNat := by
  unfold formatXNN
  rw [BitVec.toNat_append, BitVec.toNat_append, ← Nat.shiftLeft_add_eq_or_of_lt nn.isLt,
    ← Nat.shiftLeft_add_eq_or_of_lt (BitVec.isLt _), Nat.shiftLeft_eq, Nat.shiftLeft_eq]
  simp only [BitVec.toNat_ofFin]
  omega

theorem toNat_formatXYN (op : BitVec 4) (x y : Reg) (n : BitVec 4) :
    (formatXYN op x y n).toNat = 4096 * op.toNat + 256 * x.val + 16 * y.val + n.toNat := by
  unfold formatXYN
  rw [BitVec.toNat_append, BitVec.toNat_append, BitVec.toNat_append, ← Nat.shiftLeft_add_eq_or_of_lt n.isLt,
    ← Nat.shiftLeft_add_eq_or_of_lt (BitVec.isLt _), ← Nat.shiftLeft_add_eq_or_of_lt (BitVec.isLt _),
    Nat.shiftLeft_eq, Nat.shiftLeft_eq, Nat.shiftLeft_eq]
  simp only [BitVec.toNat_ofFin]
  omega

theorem toNat_opcodeOf (w : Word) : (opcodeOf w).toNat = w.toNat / 4096 := by
  have := w.isLt
  simp only [opcodeOf, BitVec.extractLsb'_toNat, Nat.shiftRight_eq_div_pow]
  omega

theorem val_xOf (w : Word) : (xOf w).val = w.toNat / 256 % 16 := by
  simp [xOf, Nat.shiftRight_eq_div_pow]

theorem val_yOf (w : Word) : (yOf w).val = w.toNat / 16 % 16 := by
  simp [yOf, Nat.shiftRight_eq_div_pow]

theorem toNat_nOf (w : Word) : (nOf w).toNat = w.toNat % 16 := by
  simp [nOf, BitVec.extractLsb'_toNat]

theorem toNat_nnOf (w : Word) : (nnOf w).toNat = w.toNat % 256 := by
  simp [nnOf, BitVec.extractLsb'_toNat]

theorem toNat_nnnOf (w : Word) : (nnnOf w).toNat = w.toNat % 4096 := by
  simp [nnnOf, BitVec.extractLsb'_toNat]

/-! ### The fields of each format -/

@[simp] theorem opcodeOf_formatNNN (op : BitVec 4) (nnn : Addr) : opcodeOf (formatNNN op nnn) = op := by
  apply BitVec.eq_of_toNat_eq; rw [toNat_opcodeOf, toNat_formatNNN]; omega
@[simp] theorem nnnOf_formatNNN (op : BitVec 4) (nnn : Addr) : nnnOf (formatNNN op nnn) = nnn := by
  apply BitVec.eq_of_toNat_eq; rw [toNat_nnnOf, toNat_formatNNN]; omega

@[simp] theorem opcodeOf_formatXNN (op : BitVec 4) (x : Reg) (nn : Byte) : opcodeOf (formatXNN op x nn) = op := by
  apply BitVec.eq_of_toNat_eq; rw [toNat_opcodeOf, toNat_formatXNN]; omega
@[simp] theorem xOf_formatXNN (op : BitVec 4) (x : Reg) (nn : Byte) : xOf (formatXNN op x nn) = x := by
  apply Fin.ext; rw [val_xOf, toNat_formatXNN]; omega
@[simp] theorem nnOf_formatXNN (op : BitVec 4) (x : Reg) (nn : Byte) : nnOf (formatXNN op x nn) = nn := by
  apply BitVec.eq_of_toNat_eq; rw [toNat_nnOf, toNat_formatXNN]; omega

@[simp] theorem opcodeOf_formatXYN (op : BitVec 4) (x y : Reg) (n : BitVec 4) : opcodeOf (formatXYN op x y n) = op := by
  apply BitVec.eq_of_toNat_eq; rw [toNat_opcodeOf, toNat_formatXYN]; omega
@[simp] theorem xOf_formatXYN (op : BitVec 4) (x y : Reg) (n : BitVec 4) : xOf (formatXYN op x y n) = x := by
  apply Fin.ext; rw [val_xOf, toNat_formatXYN]; omega
@[simp] theorem yOf_formatXYN (op : BitVec 4) (x y : Reg) (n : BitVec 4) : yOf (formatXYN op x y n) = y := by
  apply Fin.ext; rw [val_yOf, toNat_formatXYN]; omega
@[simp] theorem nOf_formatXYN (op : BitVec 4) (x y : Reg) (n : BitVec 4) : nOf (formatXYN op x y n) = n := by
  apply BitVec.eq_of_toNat_eq; rw [toNat_nOf, toNat_formatXYN]; omega

/-! ### A word from its fields, and the encoder on each family -/

theorem formatNNN_fields (w : Word) : formatNNN (opcodeOf w) (nnnOf w) = w := by
  apply BitVec.eq_of_toNat_eq; rw [toNat_formatNNN, toNat_opcodeOf, toNat_nnnOf]; omega
theorem formatXNN_fields (w : Word) : formatXNN (opcodeOf w) (xOf w) (nnOf w) = w := by
  apply BitVec.eq_of_toNat_eq; rw [toNat_formatXNN, toNat_opcodeOf, val_xOf, toNat_nnOf]; omega
theorem formatXYN_fields (w : Word) : formatXYN (opcodeOf w) (xOf w) (yOf w) (nOf w) = w := by
  apply BitVec.eq_of_toNat_eq; rw [toNat_formatXYN, toNat_opcodeOf, val_xOf, val_yOf, toNat_nOf]; omega

/-- The opcode nibble is one of sixteen. -/
theorem opcode_cases (o : BitVec 4) : o = 0x0 ∨ o = 0x1 ∨ o = 0x2 ∨ o = 0x3 ∨ o = 0x4 ∨ o = 0x5 ∨ o = 0x6 ∨ o = 0x7 ∨
    o = 0x8 ∨ o = 0x9 ∨ o = 0xA ∨ o = 0xB ∨ o = 0xC ∨ o = 0xD ∨ o = 0xE ∨ o = 0xF := by
  revert o; decide

/-! ### What the decoder answers for each opcode nibble -/

section
variable {w : Word}

theorem decodeWord_opcode0 (h : opcodeOf w = 0x0#4) : decodeWord w = decodeFamily0 w := by
  unfold decodeWord; rw [h]; rfl
theorem decodeWord_opcode1 (h : opcodeOf w = 0x1#4) : decodeWord w = .ok (.jp (nnnOf w)) := by
  unfold decodeWord; rw [h]; rfl
theorem decodeWord_opcode2 (h : opcodeOf w = 0x2#4) : decodeWord w = .ok (.call (nnnOf w)) := by
  unfold decodeWord; rw [h]; rfl
theorem decodeWord_opcode3 (h : opcodeOf w = 0x3#4) : decodeWord w = .ok (.se (xOf w) (nnOf w)) := by
  unfold decodeWord; rw [h]; rfl
theorem decodeWord_opcode4 (h : opcodeOf w = 0x4#4) : decodeWord w = .ok (.sne (xOf w) (nnOf w)) := by
  unfold decodeWord; rw [h]; rfl
theorem decodeWord_opcode5 (h : opcodeOf w = 0x5#4) : decodeWord w = .error .family5 := by
  unfold decodeWord; rw [h]; rfl
theorem decodeWord_opcode6 (h : opcodeOf w = 0x6#4) : decodeWord w = .ok (.ldi (xOf w) (nnOf w)) := by
  unfold decodeWord; rw [h]; rfl
theorem decodeWord_opcode7 (h : opcodeOf w = 0x7#4) : decodeWord w = .ok (.addi (xOf w) (nnOf w)) := by
  unfold decodeWord; rw [h]; rfl
theorem decodeWord_opcode8 (h : opcodeOf w = 0x8#4) : decodeWord w = decodeFamily8 w := by
  unfold decodeWord; rw [h]; rfl
theorem decodeWord_opcode9 (h : opcodeOf w = 0x9#4) : decodeWord w = .error .family9 := by
  unfold decodeWord; rw [h]; rfl
theorem decodeWord_opcodeA (h : opcodeOf w = 0xA#4) : decodeWord w = .ok (.ldidx (nnnOf w)) := by
  unfold decodeWord; rw [h]; rfl
theorem decodeWord_opcodeB (h : opcodeOf w = 0xB#4) : decodeWord w = .ok (.jpv0 (nnnOf w)) := by
  unfold decodeWord; rw [h]; rfl
theorem decodeWord_opcodeC (h : opcodeOf w = 0xC#4) : decodeWord w = .ok (.rnd (xOf w) (nnOf w)) := by
  unfold decodeWord; rw [h]; rfl
theorem decodeWord_opcodeD (h : opcodeOf w = 0xD#4) : decodeWord w = .ok (.drw (xOf w) (yOf w) (nOf w)) := by
  unfold decodeWord; rw [h]; rfl
theorem decodeWord_opcodeE (h : opcodeOf w = 0xE#4) : decodeWord w = decodeFamilyE w := by
  unfold decodeWord; rw [h]; rfl
theorem decodeWord_opcodeF (h : opcodeOf w = 0xF#4) : decodeWord w = decodeFamilyF w := by
  unfold decodeWord; rw [h]; rfl

end

/-! ### Bytes and words -/

theorem toNat_wordOfBytes (hi lo : Byte) : (wordOfBytes hi lo).toNat = 256 * hi.toNat + lo.toNat := by
  unfold wordOfBytes
  rw [BitVec.toNat_append, ← Nat.shiftLeft_add_eq_or_of_lt lo.isLt, Nat.shiftLeft_eq]
  omega

@[simp] theorem wordOfBytes_highByte_lowByte (w : Word) : wordOfBytes (highByte w) (lowByte w) = w := by
  apply BitVec.eq_of_toNat_eq
  have := w.isLt
  rw [toNat_wordOfBytes]
  simp only [highByte, lowByte, BitVec.extractLsb'_toNat, Nat.shiftRight_eq_div_pow]
  omega

@[simp] theorem highByte_wordOfBytes (hi lo : Byte) : highByte (wordOfBytes hi lo) = hi := by
  apply BitVec.eq_of_toNat_eq
  simp only [highByte, BitVec.extractLsb'_toNat, Nat.shiftRight_eq_div_pow, toNat_wordOfBytes]
  omega

@[simp] theorem lowByte_wordOfBytes (hi lo : Byte) : lowByte (wordOfBytes hi lo) = lo := by
  apply BitVec.eq_of_toNat_eq
  simp only [lowByte, BitVec.extractLsb'_toNat, Nat.shiftRight_eq_div_pow, toNat_wordOfBytes]
  omega

/-! ### Masks -/

/-- The mask of the formats `NNN`, `XNN` and `XYN` keeps the opcode. -/
theorem and_mask_opcode (w : Word) : w &&& 0xF000 = formatNNN (opcodeOf w) 0 := by
  apply BitVec.eq_of_getLsbD_eq
  intro k hk
  simp only [formatNNN, opcodeOf, BitVec.getLsbD_and, BitVec.getLsbD_append, BitVec.getLsbD_extractLsb']
  interval_cases k <;> simp

/-- The mask of the format `XY` keeps the opcode and `n`. -/
theorem and_mask_opcode_n (w : Word) : w &&& 0xF00F = formatXYN (opcodeOf w) 0 0 (nOf w) := by
  apply BitVec.eq_of_getLsbD_eq
  intro k hk
  simp only [formatXYN, opcodeOf, nOf, BitVec.getLsbD_and, BitVec.getLsbD_append, BitVec.getLsbD_extractLsb']
  interval_cases k <;> simp

/-- The mask of the format `X` keeps the opcode and `nn`. -/
theorem and_mask_opcode_nn (w : Word) : w &&& 0xF0FF = formatXNN (opcodeOf w) 0 (nnOf w) := by
  apply BitVec.eq_of_getLsbD_eq
  intro k hk
  simp only [formatXNN, opcodeOf, nnOf, BitVec.getLsbD_and, BitVec.getLsbD_append, BitVec.getLsbD_extractLsb']
  interval_cases k <;> simp

theorem formatNNN_and_mask (op : BitVec 4) (nnn : Addr) : formatNNN op nnn &&& 0xF000 = formatNNN op 0 := by
  rw [and_mask_opcode, opcodeOf_formatNNN]
theorem formatXNN_and_mask (op : BitVec 4) (x : Reg) (nn : Byte) : formatXNN op x nn &&& 0xF000 = formatNNN op 0 := by
  rw [and_mask_opcode, opcodeOf_formatXNN]
theorem formatXYN_and_mask (op : BitVec 4) (x y : Reg) (n : BitVec 4) :
    formatXYN op x y n &&& 0xF000 = formatNNN op 0 := by
  rw [and_mask_opcode, opcodeOf_formatXYN]
theorem formatXNN_and_mask_sub (op : BitVec 4) (x : Reg) (nn : Byte) :
    formatXNN op x nn &&& 0xF0FF = formatXNN op 0 nn := by
  rw [and_mask_opcode_nn, opcodeOf_formatXNN, nnOf_formatXNN]
theorem formatXYN_and_mask_sub (op : BitVec 4) (x y : Reg) (n : BitVec 4) :
    formatXYN op x y n &&& 0xF00F = formatXYN op 0 0 n := by
  rw [and_mask_opcode_n, opcodeOf_formatXYN, nOf_formatXYN]

end Sys2Proof
end

