-- ==== Sys2Proof/Laws/State.lean ====
section
/-! SUPPORT. What each named update of a state leaves in each field: one lemma per field per update, and what the
accessors read after each update. -/

namespace Sys2Proof.Machine

variable (s : State)

/-! ### writeByte -/

@[simp] theorem State.writeByte_mem (a : Addr) (b : Byte) : (s.writeByte a b).mem = Memory.write s.params.font s.mem a b := rfl
@[simp] theorem State.writeByte_v (a : Addr) (b : Byte) : (s.writeByte a b).v = s.v := rfl
@[simp] theorem State.writeByte_i (a : Addr) (b : Byte) : (s.writeByte a b).i = s.i := rfl
@[simp] theorem State.writeByte_pc (a : Addr) (b : Byte) : (s.writeByte a b).pc = s.pc := rfl
@[simp] theorem State.writeByte_sp (a : Addr) (b : Byte) : (s.writeByte a b).sp = s.sp := rfl
@[simp] theorem State.writeByte_stack (a : Addr) (b : Byte) : (s.writeByte a b).stack = s.stack := rfl
@[simp] theorem State.writeByte_dt (a : Addr) (b : Byte) : (s.writeByte a b).dt = s.dt := rfl
@[simp] theorem State.writeByte_st (a : Addr) (b : Byte) : (s.writeByte a b).st = s.st := rfl
@[simp] theorem State.writeByte_fb (a : Addr) (b : Byte) : (s.writeByte a b).fb = s.fb := rfl
@[simp] theorem State.writeByte_fault (a : Addr) (b : Byte) : (s.writeByte a b).fault = s.fault := rfl
@[simp] theorem State.writeByte_effect (a : Addr) (b : Byte) : (s.writeByte a b).effect = s.effect := rfl
@[simp] theorem State.writeByte_loadResult (a : Addr) (b : Byte) : (s.writeByte a b).loadResult = s.loadResult := rfl
@[simp] theorem State.writeByte_input (a : Addr) (b : Byte) : (s.writeByte a b).input = s.input := rfl
@[simp] theorem State.writeByte_host (a : Addr) (b : Byte) : (s.writeByte a b).host = s.host := rfl
@[simp] theorem State.writeByte_drawn (a : Addr) (b : Byte) : (s.writeByte a b).drawn = s.drawn := rfl
@[simp] theorem State.writeByte_started (a : Addr) (b : Byte) : (s.writeByte a b).started = s.started := rfl
@[simp] theorem State.writeByte_params (a : Addr) (b : Byte) : (s.writeByte a b).params = s.params := rfl

/-! ### setReg -/

@[simp] theorem State.setReg_mem (x : Reg) (b : Byte) : (s.setReg x b).mem = s.mem := rfl
@[simp] theorem State.setReg_v (x : Reg) (b : Byte) : (s.setReg x b).v = s.v.set x b := rfl
@[simp] theorem State.setReg_i (x : Reg) (b : Byte) : (s.setReg x b).i = s.i := rfl
@[simp] theorem State.setReg_pc (x : Reg) (b : Byte) : (s.setReg x b).pc = s.pc := rfl
@[simp] theorem State.setReg_sp (x : Reg) (b : Byte) : (s.setReg x b).sp = s.sp := rfl
@[simp] theorem State.setReg_stack (x : Reg) (b : Byte) : (s.setReg x b).stack = s.stack := rfl
@[simp] theorem State.setReg_dt (x : Reg) (b : Byte) : (s.setReg x b).dt = s.dt := rfl
@[simp] theorem State.setReg_st (x : Reg) (b : Byte) : (s.setReg x b).st = s.st := rfl
@[simp] theorem State.setReg_fb (x : Reg) (b : Byte) : (s.setReg x b).fb = s.fb := rfl
@[simp] theorem State.setReg_fault (x : Reg) (b : Byte) : (s.setReg x b).fault = s.fault := rfl
@[simp] theorem State.setReg_effect (x : Reg) (b : Byte) : (s.setReg x b).effect = s.effect := rfl
@[simp] theorem State.setReg_loadResult (x : Reg) (b : Byte) : (s.setReg x b).loadResult = s.loadResult := rfl
@[simp] theorem State.setReg_input (x : Reg) (b : Byte) : (s.setReg x b).input = s.input := rfl
@[simp] theorem State.setReg_host (x : Reg) (b : Byte) : (s.setReg x b).host = s.host := rfl
@[simp] theorem State.setReg_drawn (x : Reg) (b : Byte) : (s.setReg x b).drawn = s.drawn := rfl
@[simp] theorem State.setReg_started (x : Reg) (b : Byte) : (s.setReg x b).started = s.started := rfl
@[simp] theorem State.setReg_params (x : Reg) (b : Byte) : (s.setReg x b).params = s.params := rfl

/-! ### setI -/

@[simp] theorem State.setI_mem (a : Word) : (s.setI a).mem = s.mem := rfl
@[simp] theorem State.setI_v (a : Word) : (s.setI a).v = s.v := rfl
@[simp] theorem State.setI_i (a : Word) : (s.setI a).i = a := rfl
@[simp] theorem State.setI_pc (a : Word) : (s.setI a).pc = s.pc := rfl
@[simp] theorem State.setI_sp (a : Word) : (s.setI a).sp = s.sp := rfl
@[simp] theorem State.setI_stack (a : Word) : (s.setI a).stack = s.stack := rfl
@[simp] theorem State.setI_dt (a : Word) : (s.setI a).dt = s.dt := rfl
@[simp] theorem State.setI_st (a : Word) : (s.setI a).st = s.st := rfl
@[simp] theorem State.setI_fb (a : Word) : (s.setI a).fb = s.fb := rfl
@[simp] theorem State.setI_fault (a : Word) : (s.setI a).fault = s.fault := rfl
@[simp] theorem State.setI_effect (a : Word) : (s.setI a).effect = s.effect := rfl
@[simp] theorem State.setI_loadResult (a : Word) : (s.setI a).loadResult = s.loadResult := rfl
@[simp] theorem State.setI_input (a : Word) : (s.setI a).input = s.input := rfl
@[simp] theorem State.setI_host (a : Word) : (s.setI a).host = s.host := rfl
@[simp] theorem State.setI_drawn (a : Word) : (s.setI a).drawn = s.drawn := rfl
@[simp] theorem State.setI_started (a : Word) : (s.setI a).started = s.started := rfl
@[simp] theorem State.setI_params (a : Word) : (s.setI a).params = s.params := rfl

/-! ### setPc -/

@[simp] theorem State.setPc_mem (a : Word) : (s.setPc a).mem = s.mem := rfl
@[simp] theorem State.setPc_v (a : Word) : (s.setPc a).v = s.v := rfl
@[simp] theorem State.setPc_i (a : Word) : (s.setPc a).i = s.i := rfl
@[simp] theorem State.setPc_pc (a : Word) : (s.setPc a).pc = a := rfl
@[simp] theorem State.setPc_sp (a : Word) : (s.setPc a).sp = s.sp := rfl
@[simp] theorem State.setPc_stack (a : Word) : (s.setPc a).stack = s.stack := rfl
@[simp] theorem State.setPc_dt (a : Word) : (s.setPc a).dt = s.dt := rfl
@[simp] theorem State.setPc_st (a : Word) : (s.setPc a).st = s.st := rfl
@[simp] theorem State.setPc_fb (a : Word) : (s.setPc a).fb = s.fb := rfl
@[simp] theorem State.setPc_fault (a : Word) : (s.setPc a).fault = s.fault := rfl
@[simp] theorem State.setPc_effect (a : Word) : (s.setPc a).effect = s.effect := rfl
@[simp] theorem State.setPc_loadResult (a : Word) : (s.setPc a).loadResult = s.loadResult := rfl
@[simp] theorem State.setPc_input (a : Word) : (s.setPc a).input = s.input := rfl
@[simp] theorem State.setPc_host (a : Word) : (s.setPc a).host = s.host := rfl
@[simp] theorem State.setPc_drawn (a : Word) : (s.setPc a).drawn = s.drawn := rfl
@[simp] theorem State.setPc_started (a : Word) : (s.setPc a).started = s.started := rfl
@[simp] theorem State.setPc_params (a : Word) : (s.setPc a).params = s.params := rfl

/-! ### setDt -/

@[simp] theorem State.setDt_mem (b : Byte) : (s.setDt b).mem = s.mem := rfl
@[simp] theorem State.setDt_v (b : Byte) : (s.setDt b).v = s.v := rfl
@[simp] theorem State.setDt_i (b : Byte) : (s.setDt b).i = s.i := rfl
@[simp] theorem State.setDt_pc (b : Byte) : (s.setDt b).pc = s.pc := rfl
@[simp] theorem State.setDt_sp (b : Byte) : (s.setDt b).sp = s.sp := rfl
@[simp] theorem State.setDt_stack (b : Byte) : (s.setDt b).stack = s.stack := rfl
@[simp] theorem State.setDt_dt (b : Byte) : (s.setDt b).dt = b := rfl
@[simp] theorem State.setDt_st (b : Byte) : (s.setDt b).st = s.st := rfl
@[simp] theorem State.setDt_fb (b : Byte) : (s.setDt b).fb = s.fb := rfl
@[simp] theorem State.setDt_fault (b : Byte) : (s.setDt b).fault = s.fault := rfl
@[simp] theorem State.setDt_effect (b : Byte) : (s.setDt b).effect = s.effect := rfl
@[simp] theorem State.setDt_loadResult (b : Byte) : (s.setDt b).loadResult = s.loadResult := rfl
@[simp] theorem State.setDt_input (b : Byte) : (s.setDt b).input = s.input := rfl
@[simp] theorem State.setDt_host (b : Byte) : (s.setDt b).host = s.host := rfl
@[simp] theorem State.setDt_drawn (b : Byte) : (s.setDt b).drawn = s.drawn := rfl
@[simp] theorem State.setDt_started (b : Byte) : (s.setDt b).started = s.started := rfl
@[simp] theorem State.setDt_params (b : Byte) : (s.setDt b).params = s.params := rfl

/-! ### setSt -/

@[simp] theorem State.setSt_mem (b : Byte) : (s.setSt b).mem = s.mem := rfl
@[simp] theorem State.setSt_v (b : Byte) : (s.setSt b).v = s.v := rfl
@[simp] theorem State.setSt_i (b : Byte) : (s.setSt b).i = s.i := rfl
@[simp] theorem State.setSt_pc (b : Byte) : (s.setSt b).pc = s.pc := rfl
@[simp] theorem State.setSt_sp (b : Byte) : (s.setSt b).sp = s.sp := rfl
@[simp] theorem State.setSt_stack (b : Byte) : (s.setSt b).stack = s.stack := rfl
@[simp] theorem State.setSt_dt (b : Byte) : (s.setSt b).dt = s.dt := rfl
@[simp] theorem State.setSt_st (b : Byte) : (s.setSt b).st = b := rfl
@[simp] theorem State.setSt_fb (b : Byte) : (s.setSt b).fb = s.fb := rfl
@[simp] theorem State.setSt_fault (b : Byte) : (s.setSt b).fault = s.fault := rfl
@[simp] theorem State.setSt_effect (b : Byte) : (s.setSt b).effect = s.effect := rfl
@[simp] theorem State.setSt_loadResult (b : Byte) : (s.setSt b).loadResult = s.loadResult := rfl
@[simp] theorem State.setSt_input (b : Byte) : (s.setSt b).input = s.input := rfl
@[simp] theorem State.setSt_host (b : Byte) : (s.setSt b).host = s.host := rfl
@[simp] theorem State.setSt_drawn (b : Byte) : (s.setSt b).drawn = s.drawn := rfl
@[simp] theorem State.setSt_started (b : Byte) : (s.setSt b).started = s.started := rfl
@[simp] theorem State.setSt_params (b : Byte) : (s.setSt b).params = s.params := rfl

/-! ### setFb -/

@[simp] theorem State.setFb_mem (f : Screen) : (s.setFb f).mem = s.mem := rfl
@[simp] theorem State.setFb_v (f : Screen) : (s.setFb f).v = s.v := rfl
@[simp] theorem State.setFb_i (f : Screen) : (s.setFb f).i = s.i := rfl
@[simp] theorem State.setFb_pc (f : Screen) : (s.setFb f).pc = s.pc := rfl
@[simp] theorem State.setFb_sp (f : Screen) : (s.setFb f).sp = s.sp := rfl
@[simp] theorem State.setFb_stack (f : Screen) : (s.setFb f).stack = s.stack := rfl
@[simp] theorem State.setFb_dt (f : Screen) : (s.setFb f).dt = s.dt := rfl
@[simp] theorem State.setFb_st (f : Screen) : (s.setFb f).st = s.st := rfl
@[simp] theorem State.setFb_fb (f : Screen) : (s.setFb f).fb = f := rfl
@[simp] theorem State.setFb_fault (f : Screen) : (s.setFb f).fault = s.fault := rfl
@[simp] theorem State.setFb_effect (f : Screen) : (s.setFb f).effect = s.effect := rfl
@[simp] theorem State.setFb_loadResult (f : Screen) : (s.setFb f).loadResult = s.loadResult := rfl
@[simp] theorem State.setFb_input (f : Screen) : (s.setFb f).input = s.input := rfl
@[simp] theorem State.setFb_host (f : Screen) : (s.setFb f).host = s.host := rfl
@[simp] theorem State.setFb_drawn (f : Screen) : (s.setFb f).drawn = s.drawn := rfl
@[simp] theorem State.setFb_started (f : Screen) : (s.setFb f).started = s.started := rfl
@[simp] theorem State.setFb_params (f : Screen) : (s.setFb f).params = s.params := rfl

/-! ### pushReturn -/

@[simp] theorem State.pushReturn_mem (a : Word) : (s.pushReturn a).mem = s.mem := rfl
@[simp] theorem State.pushReturn_v (a : Word) : (s.pushReturn a).v = s.v := rfl
@[simp] theorem State.pushReturn_i (a : Word) : (s.pushReturn a).i = s.i := rfl
@[simp] theorem State.pushReturn_pc (a : Word) : (s.pushReturn a).pc = s.pc := rfl
@[simp] theorem State.pushReturn_sp (a : Word) : (s.pushReturn a).sp = s.sp + 1 := rfl
@[simp] theorem State.pushReturn_stack (a : Word) : (s.pushReturn a).stack = s.stack.setIfInBounds s.sp.toNat a := rfl
@[simp] theorem State.pushReturn_dt (a : Word) : (s.pushReturn a).dt = s.dt := rfl
@[simp] theorem State.pushReturn_st (a : Word) : (s.pushReturn a).st = s.st := rfl
@[simp] theorem State.pushReturn_fb (a : Word) : (s.pushReturn a).fb = s.fb := rfl
@[simp] theorem State.pushReturn_fault (a : Word) : (s.pushReturn a).fault = s.fault := rfl
@[simp] theorem State.pushReturn_effect (a : Word) : (s.pushReturn a).effect = s.effect := rfl
@[simp] theorem State.pushReturn_loadResult (a : Word) : (s.pushReturn a).loadResult = s.loadResult := rfl
@[simp] theorem State.pushReturn_input (a : Word) : (s.pushReturn a).input = s.input := rfl
@[simp] theorem State.pushReturn_host (a : Word) : (s.pushReturn a).host = s.host := rfl
@[simp] theorem State.pushReturn_drawn (a : Word) : (s.pushReturn a).drawn = s.drawn := rfl
@[simp] theorem State.pushReturn_started (a : Word) : (s.pushReturn a).started = s.started := rfl
@[simp] theorem State.pushReturn_params (a : Word) : (s.pushReturn a).params = s.params := rfl

/-! ### dropReturn -/

@[simp] theorem State.dropReturn_mem : (s.dropReturn).mem = s.mem := rfl
@[simp] theorem State.dropReturn_v : (s.dropReturn).v = s.v := rfl
@[simp] theorem State.dropReturn_i : (s.dropReturn).i = s.i := rfl
@[simp] theorem State.dropReturn_pc : (s.dropReturn).pc = s.pc := rfl
@[simp] theorem State.dropReturn_sp : (s.dropReturn).sp = s.sp - 1 := rfl
@[simp] theorem State.dropReturn_stack : (s.dropReturn).stack = s.stack := rfl
@[simp] theorem State.dropReturn_dt : (s.dropReturn).dt = s.dt := rfl
@[simp] theorem State.dropReturn_st : (s.dropReturn).st = s.st := rfl
@[simp] theorem State.dropReturn_fb : (s.dropReturn).fb = s.fb := rfl
@[simp] theorem State.dropReturn_fault : (s.dropReturn).fault = s.fault := rfl
@[simp] theorem State.dropReturn_effect : (s.dropReturn).effect = s.effect := rfl
@[simp] theorem State.dropReturn_loadResult : (s.dropReturn).loadResult = s.loadResult := rfl
@[simp] theorem State.dropReturn_input : (s.dropReturn).input = s.input := rfl
@[simp] theorem State.dropReturn_host : (s.dropReturn).host = s.host := rfl
@[simp] theorem State.dropReturn_drawn : (s.dropReturn).drawn = s.drawn := rfl
@[simp] theorem State.dropReturn_started : (s.dropReturn).started = s.started := rfl
@[simp] theorem State.dropReturn_params : (s.dropReturn).params = s.params := rfl

/-! ### report -/

@[simp] theorem State.report_mem (e : Effect) : (s.report e).mem = s.mem := rfl
@[simp] theorem State.report_v (e : Effect) : (s.report e).v = s.v := rfl
@[simp] theorem State.report_i (e : Effect) : (s.report e).i = s.i := rfl
@[simp] theorem State.report_pc (e : Effect) : (s.report e).pc = s.pc := rfl
@[simp] theorem State.report_sp (e : Effect) : (s.report e).sp = s.sp := rfl
@[simp] theorem State.report_stack (e : Effect) : (s.report e).stack = s.stack := rfl
@[simp] theorem State.report_dt (e : Effect) : (s.report e).dt = s.dt := rfl
@[simp] theorem State.report_st (e : Effect) : (s.report e).st = s.st := rfl
@[simp] theorem State.report_fb (e : Effect) : (s.report e).fb = s.fb := rfl
@[simp] theorem State.report_fault (e : Effect) : (s.report e).fault = s.fault := rfl
@[simp] theorem State.report_effect (e : Effect) : (s.report e).effect = e := rfl
@[simp] theorem State.report_loadResult (e : Effect) : (s.report e).loadResult = s.loadResult := rfl
@[simp] theorem State.report_input (e : Effect) : (s.report e).input = s.input := rfl
@[simp] theorem State.report_host (e : Effect) : (s.report e).host = s.host := rfl
@[simp] theorem State.report_drawn (e : Effect) : (s.report e).drawn = s.drawn := rfl
@[simp] theorem State.report_started (e : Effect) : (s.report e).started = s.started := rfl
@[simp] theorem State.report_params (e : Effect) : (s.report e).params = s.params := rfl

/-! ### beginStep -/

@[simp] theorem State.beginStep_mem (inp : StepInput) : (s.beginStep inp).mem = s.mem := rfl
@[simp] theorem State.beginStep_v (inp : StepInput) : (s.beginStep inp).v = s.v := rfl
@[simp] theorem State.beginStep_i (inp : StepInput) : (s.beginStep inp).i = s.i := rfl
@[simp] theorem State.beginStep_pc (inp : StepInput) : (s.beginStep inp).pc = s.pc := rfl
@[simp] theorem State.beginStep_sp (inp : StepInput) : (s.beginStep inp).sp = s.sp := rfl
@[simp] theorem State.beginStep_stack (inp : StepInput) : (s.beginStep inp).stack = s.stack := rfl
@[simp] theorem State.beginStep_dt (inp : StepInput) : (s.beginStep inp).dt = s.dt := rfl
@[simp] theorem State.beginStep_st (inp : StepInput) : (s.beginStep inp).st = s.st := rfl
@[simp] theorem State.beginStep_fb (inp : StepInput) : (s.beginStep inp).fb = s.fb := rfl
@[simp] theorem State.beginStep_fault (inp : StepInput) : (s.beginStep inp).fault = s.fault := rfl
@[simp] theorem State.beginStep_effect (inp : StepInput) : (s.beginStep inp).effect = s.effect := rfl
@[simp] theorem State.beginStep_loadResult (inp : StepInput) : (s.beginStep inp).loadResult = s.loadResult := rfl
@[simp] theorem State.beginStep_input (inp : StepInput) : (s.beginStep inp).input = inp := rfl
@[simp] theorem State.beginStep_host (inp : StepInput) : (s.beginStep inp).host = s.host := rfl
@[simp] theorem State.beginStep_drawn (inp : StepInput) : (s.beginStep inp).drawn = s.drawn := rfl
@[simp] theorem State.beginStep_started (inp : StepInput) : (s.beginStep inp).started = true := rfl
@[simp] theorem State.beginStep_params (inp : StepInput) : (s.beginStep inp).params = s.params := rfl
@[simp] theorem State.beginStep_fetchBytes (inp : StepInput) : (s.beginStep inp).fetchBytes = s.fetchBytes := rfl

/-! ### answerLoad -/

@[simp] theorem State.answerLoad_mem (r : LoadResult) : (s.answerLoad r).mem = s.mem := rfl
@[simp] theorem State.answerLoad_v (r : LoadResult) : (s.answerLoad r).v = s.v := rfl
@[simp] theorem State.answerLoad_i (r : LoadResult) : (s.answerLoad r).i = s.i := rfl
@[simp] theorem State.answerLoad_pc (r : LoadResult) : (s.answerLoad r).pc = s.pc := rfl
@[simp] theorem State.answerLoad_sp (r : LoadResult) : (s.answerLoad r).sp = s.sp := rfl
@[simp] theorem State.answerLoad_stack (r : LoadResult) : (s.answerLoad r).stack = s.stack := rfl
@[simp] theorem State.answerLoad_dt (r : LoadResult) : (s.answerLoad r).dt = s.dt := rfl
@[simp] theorem State.answerLoad_st (r : LoadResult) : (s.answerLoad r).st = s.st := rfl
@[simp] theorem State.answerLoad_fb (r : LoadResult) : (s.answerLoad r).fb = s.fb := rfl
@[simp] theorem State.answerLoad_fault (r : LoadResult) : (s.answerLoad r).fault = s.fault := rfl
@[simp] theorem State.answerLoad_effect (r : LoadResult) : (s.answerLoad r).effect = s.effect := rfl
@[simp] theorem State.answerLoad_loadResult (r : LoadResult) : (s.answerLoad r).loadResult = r := rfl
@[simp] theorem State.answerLoad_input (r : LoadResult) : (s.answerLoad r).input = s.input := rfl
@[simp] theorem State.answerLoad_host (r : LoadResult) : (s.answerLoad r).host = s.host := rfl
@[simp] theorem State.answerLoad_drawn (r : LoadResult) : (s.answerLoad r).drawn = s.drawn := rfl
@[simp] theorem State.answerLoad_started (r : LoadResult) : (s.answerLoad r).started = s.started := rfl
@[simp] theorem State.answerLoad_params (r : LoadResult) : (s.answerLoad r).params = s.params := rfl

/-! ### The accessors after each update -/

@[simp] theorem State.writeByte_reg (a : Addr) (b : Byte) (r : Reg) : (s.writeByte a b).reg r = s.reg r := rfl
@[simp] theorem State.setI_reg (a : Word) (r : Reg) : (s.setI a).reg r = s.reg r := rfl
@[simp] theorem State.setPc_reg (a : Word) (r : Reg) : (s.setPc a).reg r = s.reg r := rfl
@[simp] theorem State.setDt_reg (b : Byte) (r : Reg) : (s.setDt b).reg r = s.reg r := rfl
@[simp] theorem State.setSt_reg (b : Byte) (r : Reg) : (s.setSt b).reg r = s.reg r := rfl
@[simp] theorem State.setFb_reg (f : Screen) (r : Reg) : (s.setFb f).reg r = s.reg r := rfl
@[simp] theorem State.pushReturn_reg (a : Word) (r : Reg) : (s.pushReturn a).reg r = s.reg r := rfl
@[simp] theorem State.dropReturn_reg (r : Reg) : (s.dropReturn).reg r = s.reg r := rfl
@[simp] theorem State.report_reg (e : Effect) (r : Reg) : (s.report e).reg r = s.reg r := rfl
@[simp] theorem State.answerLoad_reg (q : LoadResult) (r : Reg) : (s.answerLoad q).reg r = s.reg r := rfl

@[simp] theorem State.setReg_readByte (x : Reg) (b : Byte) (c : Addr) : (s.setReg x b).readByte c = s.readByte c := rfl
@[simp] theorem State.setI_readByte (a : Word) (c : Addr) : (s.setI a).readByte c = s.readByte c := rfl
@[simp] theorem State.setPc_readByte (a : Word) (c : Addr) : (s.setPc a).readByte c = s.readByte c := rfl
@[simp] theorem State.setDt_readByte (b : Byte) (c : Addr) : (s.setDt b).readByte c = s.readByte c := rfl
@[simp] theorem State.setSt_readByte (b : Byte) (c : Addr) : (s.setSt b).readByte c = s.readByte c := rfl
@[simp] theorem State.setFb_readByte (f : Screen) (c : Addr) : (s.setFb f).readByte c = s.readByte c := rfl
@[simp] theorem State.pushReturn_readByte (a : Word) (c : Addr) : (s.pushReturn a).readByte c = s.readByte c := rfl
@[simp] theorem State.dropReturn_readByte (c : Addr) : (s.dropReturn).readByte c = s.readByte c := rfl
@[simp] theorem State.report_readByte (e : Effect) (c : Addr) : (s.report e).readByte c = s.readByte c := rfl
@[simp] theorem State.answerLoad_readByte (q : LoadResult) (c : Addr) : (s.answerLoad q).readByte c = s.readByte c := rfl

@[simp] theorem State.writeByte_pixel (a : Addr) (b : Byte) (k : Pixel) : (s.writeByte a b).pixel k = s.pixel k := rfl
@[simp] theorem State.setReg_pixel (x : Reg) (b : Byte) (k : Pixel) : (s.setReg x b).pixel k = s.pixel k := rfl
@[simp] theorem State.setI_pixel (a : Word) (k : Pixel) : (s.setI a).pixel k = s.pixel k := rfl
@[simp] theorem State.setPc_pixel (a : Word) (k : Pixel) : (s.setPc a).pixel k = s.pixel k := rfl
@[simp] theorem State.setDt_pixel (b : Byte) (k : Pixel) : (s.setDt b).pixel k = s.pixel k := rfl
@[simp] theorem State.setSt_pixel (b : Byte) (k : Pixel) : (s.setSt b).pixel k = s.pixel k := rfl
@[simp] theorem State.pushReturn_pixel (a : Word) (k : Pixel) : (s.pushReturn a).pixel k = s.pixel k := rfl
@[simp] theorem State.dropReturn_pixel (k : Pixel) : (s.dropReturn).pixel k = s.pixel k := rfl
@[simp] theorem State.report_pixel (e : Effect) (k : Pixel) : (s.report e).pixel k = s.pixel k := rfl
@[simp] theorem State.answerLoad_pixel (q : LoadResult) (k : Pixel) : (s.answerLoad q).pixel k = s.pixel k := rfl

@[simp] theorem State.writeByte_indexAddr (a : Addr) (b : Byte) (k : Nat) : (s.writeByte a b).indexAddr k = s.indexAddr k := rfl
@[simp] theorem State.setReg_indexAddr (x : Reg) (b : Byte) (k : Nat) : (s.setReg x b).indexAddr k = s.indexAddr k := rfl
@[simp] theorem State.setPc_indexAddr (a : Word) (k : Nat) : (s.setPc a).indexAddr k = s.indexAddr k := rfl
@[simp] theorem State.setDt_indexAddr (b : Byte) (k : Nat) : (s.setDt b).indexAddr k = s.indexAddr k := rfl
@[simp] theorem State.setSt_indexAddr (b : Byte) (k : Nat) : (s.setSt b).indexAddr k = s.indexAddr k := rfl
@[simp] theorem State.setFb_indexAddr (f : Screen) (k : Nat) : (s.setFb f).indexAddr k = s.indexAddr k := rfl
@[simp] theorem State.pushReturn_indexAddr (a : Word) (k : Nat) : (s.pushReturn a).indexAddr k = s.indexAddr k := rfl
@[simp] theorem State.dropReturn_indexAddr (k : Nat) : (s.dropReturn).indexAddr k = s.indexAddr k := rfl
@[simp] theorem State.report_indexAddr (e : Effect) (k : Nat) : (s.report e).indexAddr k = s.indexAddr k := rfl
@[simp] theorem State.answerLoad_indexAddr (q : LoadResult) (k : Nat) : (s.answerLoad q).indexAddr k = s.indexAddr k := rfl

/-- A register write is read back, and every other register reads as before: no register is hard-wired (10_state.md
R11). -/
@[simp] theorem State.setReg_reg (x : Reg) (b : Byte) (r : Reg) :
    (s.setReg x b).reg r = if r = x then b else s.reg r := by
  simp only [State.reg, State.setReg, Fin.getElem_fin, Vector.getElem_set, Fin.ext_iff, eq_comm]

/-- A new screen shows its own pixels. -/
@[simp] theorem State.setFb_pixel (f : Screen) (k : Pixel) : (s.setFb f).pixel k = pixelOf f k := rfl

@[simp] theorem State.advancePc_eq : s.advancePc = s.setPc (s.pc + 2) := rfl
@[simp] theorem State.skip_eq : s.skip = s.setPc (s.pc + 2) := rfl
@[simp] theorem State.writeIndexed_eq (k : Nat) (b : Byte) : s.writeIndexed k b = s.writeByte (s.indexAddr k) b := rfl
@[simp] theorem State.readIndexed_eq (k : Nat) : s.readIndexed k = s.readByte (s.indexAddr k) := rfl

end Sys2Proof.Machine
end

