-- ==== Sys2Proof/Laws/Draw.lean ====
section
/-! SUPPORT. The laws of the screen: what a toggle and a sequence of toggles leave on each pixel (43_display.md R121). -/

namespace Sys2Proof.Machine

/-- A pixel of the blank screen is off. -/
@[simp] theorem pixelOf_blankScreen (k : Pixel) : pixelOf blankScreen k = false := by
  simp [pixelOf, blankScreen]

/-- Two pixels are the same when they agree in row and column. -/
theorem Pixel.eq_iff (j k : Pixel) : j = k ↔ j.val / 64 = k.val / 64 ∧ j.val % 64 = k.val % 64 := by
  rw [Fin.ext_iff]; omega

/-- A toggle turns one pixel over and leaves every other. -/
@[simp] theorem pixelOf_togglePixel (f : Screen) (j k : Pixel) :
    pixelOf (togglePixel f j) k = if k = j then !pixelOf f k else pixelOf f k := by
  have hk : k.val % 64 < 64 := Nat.mod_lt _ (by decide)
  simp only [pixelOf, togglePixel, Vector.getElem_set]
  split <;> rename_i hrow
  · simp only [BitVec.getLsbD_xor, BitVec.getLsbD_twoPow, hrow]
    by_cases h : k = j
    · subst h; simp [hk]
    · have : j.val % 64 ≠ k.val % 64 := fun hc => h ((Pixel.eq_iff k j).mpr ⟨hrow.symm, hc.symm⟩)
      simp [h, this]
  · rw [if_neg fun h => hrow (by rw [h])]

/-- The collision so far and the screen after more toggles. -/
theorem drawPixels_foldl (ks : List Pixel) (acc : Screen × Bool) (hks : ks.Nodup) :
    (∀ k, pixelOf (ks.foldl drawPixel acc).1 k = if k ∈ ks then !pixelOf acc.1 k else pixelOf acc.1 k) ∧
    ((ks.foldl drawPixel acc).2 = true ↔ acc.2 = true ∨ ∃ k ∈ ks, pixelOf acc.1 k = true) := by
  induction ks generalizing acc with
  | nil => simp
  | cons j rest ih =>
    obtain ⟨hj, hr⟩ := List.nodup_cons.mp hks
    obtain ⟨ih1, ih2⟩ := ih (drawPixel acc j) hr
    constructor
    · intro k
      rw [List.foldl_cons, ih1]
      simp only [drawPixel, pixelOf_togglePixel, List.mem_cons]
      by_cases h : k = j
      · subst h; simp [hj]
      · simp [h]
    · rw [List.foldl_cons, ih2]
      simp only [drawPixel, pixelOf_togglePixel, Bool.or_eq_true, List.mem_cons, exists_eq_or_imp]
      have hne : ∀ k ∈ rest, k ≠ j := fun k hk h => hj (h ▸ hk)
      constructor
      · rintro ((h | h) | ⟨k, hk, h⟩)
        · exact .inl h
        · exact .inr (.inl h)
        · rw [if_neg (hne k hk)] at h; exact .inr (.inr ⟨k, hk, h⟩)
      · rintro (h | h | ⟨k, hk, h⟩)
        · exact .inl (.inl h)
        · exact .inl (.inr h)
        · exact .inr ⟨k, hk, by rw [if_neg (hne k hk)]; exact h⟩

/-- Drawing a list of distinct pixels: exactly these are turned over. -/
theorem pixelOf_drawPixels (f : Screen) (ks : List Pixel) (hks : ks.Nodup) (k : Pixel) :
    pixelOf (drawPixels f ks).1 k = if k ∈ ks then !pixelOf f k else pixelOf f k :=
  (drawPixels_foldl ks (f, false) hks).1 k

/-- Drawing a list of distinct pixels: the collision is set exactly when one of them was on. -/
theorem drawPixels_collision (f : Screen) (ks : List Pixel) (hks : ks.Nodup) :
    (drawPixels f ks).2 = true ↔ ∃ k ∈ ks, pixelOf f k = true := by
  simpa [drawPixels] using (drawPixels_foldl ks (f, false) hks).2

/-- Two pixels of a sprite with the same index come from the same row and column: at most 15 rows, 8 columns. -/
theorem pixelAt_inj {c r col row col' row' : Nat} (hc : col < 8) (hc' : col' < 8) (hr : row < 16) (hr' : row' < 16)
    (h : pixelAt (c + col) (r + row) = pixelAt (c + col') (r + row')) : row = row' ∧ col = col' := by
  simp only [pixelAt, Fin.mk.injEq] at h
  omega

/-- The pixels of a sprite, by row and column. -/
theorem State.mem_spritePixels (s : State) (x y : Reg) (n : BitVec 4) (k : Pixel) :
    k ∈ s.spritePixels x y n ↔ ∃ row < n.toNat, ∃ col < 8, (s.readIndexed row).getLsbD (7 - col) = true ∧
      pixelAt (s.spriteColumn x + col) (s.spriteRow y + row) = k := by
  simp only [State.spritePixels, List.mem_flatMap, List.mem_range, List.mem_filterMap, Option.ite_none_right_eq_some,
    Option.some.injEq]

/-- No pixel comes twice in a sprite (43_display.md R121). -/
theorem State.spritePixels_nodup (s : State) (x y : Reg) (n : BitVec 4) : (s.spritePixels x y n).Nodup := by
  have hn : n.toNat < 16 := n.isLt
  unfold State.spritePixels
  rw [List.nodup_flatMap]
  constructor
  · intro row hrow
    have hrow : row < 16 := by have := List.mem_range.mp hrow; omega
    rw [List.Nodup, List.pairwise_filterMap]
    refine List.Pairwise.imp_of_mem (fun {col col'} hc hc' hlt b hb b' hb' heq => ?_) List.pairwise_lt_range
    simp only [Option.ite_none_right_eq_some, Option.some.injEq, List.mem_range] at hb hb' hc hc'
    have := (pixelAt_inj hc hc' hrow hrow (hb.2.trans (heq.trans hb'.2.symm))).2
    omega
  · refine List.Pairwise.imp_of_mem (fun {row row'} hr hr' hlt => ?_) List.pairwise_lt_range
    simp only [List.mem_range] at hr hr'
    intro k hk hk'
    simp only [List.mem_filterMap, List.mem_range, Option.ite_none_right_eq_some, Option.some.injEq] at hk hk'
    obtain ⟨col, hc, -, h⟩ := hk
    obtain ⟨col', hc', -, h'⟩ := hk'
    have := (pixelAt_inj hc hc' (by omega) (by omega) (h.trans h'.symm)).1
    omega

end Sys2Proof.Machine
end

