-- ==== Sys2Proof/Laws/Memory.lean ====
section
/-! SUPPORT. The laws of memory: reads after writes, and that every memory operation keeps the canonical form. -/

namespace Sys2Proof.Machine

/-! ### Looking an address up -/

/-- An address below every listed one is not listed. -/
theorem Memory.find_eq_none_of_lt {m : Memory} {a : Nat} (h : ∀ c ∈ m, a < c.1) : Memory.find m a = none := by
  induction m with
  | nil => rfl
  | cons c rest ih =>
    have hc : a < c.1 := h c (by simp)
    simp only [Memory.find]
    rw [if_neg (by omega)]
    exact ih fun d hd => h d (by simp [hd])

theorem Memory.find_insert (m : Memory) (a a' : Nat) (b : Byte) (hm : m.Pairwise (fun c d => c.1 < d.1)) :
    Memory.find (Memory.insert a b m) a' = if a' = a then some b else Memory.find m a' := by
  induction m with
  | nil => simp [Memory.insert, Memory.find, eq_comm]
  | cons c rest ih =>
    obtain ⟨k, v⟩ := c
    have hr := (List.pairwise_cons.mp hm).2
    simp only [Memory.insert]
    split
    · simp [Memory.find, eq_comm]
    · split
      · simp only [Memory.find]; grind
      · simp only [Memory.find, ih hr]; grind

theorem Memory.find_erase (m : Memory) (a a' : Nat) (hm : m.Pairwise (fun c d => c.1 < d.1)) :
    Memory.find (Memory.erase a m) a' = if a' = a then none else Memory.find m a' := by
  induction m with
  | nil => simp [Memory.erase, Memory.find]
  | cons c rest ih =>
    obtain ⟨k, v⟩ := c
    obtain ⟨hk, hr⟩ := List.pairwise_cons.mp hm
    simp only [Memory.erase]
    split
    · subst_vars
      simp only [Memory.find]
      split
      · subst_vars; exact Memory.find_eq_none_of_lt hk
      · grind
    · simp only [Memory.find, ih hr]; grind

/-! ### The canonical form -/

theorem Memory.mem_insert {m : Memory} {a : Nat} {b : Byte} {c : Host.Cell} (h : c ∈ Memory.insert a b m) :
    c = (a, b) ∨ c ∈ m := by
  induction m with
  | nil => simpa [Memory.insert] using h
  | cons d rest ih =>
    simp only [Memory.insert] at h
    split at h
    · simpa using h
    · split at h
      · simp only [List.mem_cons] at h ⊢; tauto
      · simp only [List.mem_cons] at h ⊢
        rcases h with h | h
        · tauto
        · have := ih h; tauto

theorem Memory.mem_of_mem_erase {m : Memory} {a : Nat} {c : Host.Cell} (h : c ∈ Memory.erase a m) : c ∈ m := by
  induction m with
  | nil => simp [Memory.erase] at h
  | cons d rest ih =>
    simp only [Memory.erase] at h
    split at h
    · exact List.mem_cons_of_mem _ h
    · simp only [List.mem_cons] at h ⊢
      exact h.imp id ih

theorem Memory.insert_rising (m : Memory) (a : Nat) (b : Byte) (hm : m.Pairwise (fun c d => c.1 < d.1)) :
    (Memory.insert a b m).Pairwise (fun c d => c.1 < d.1) := by
  induction m with
  | nil => simp [Memory.insert]
  | cons c rest ih =>
    obtain ⟨k, v⟩ := c
    obtain ⟨hk, hr⟩ := List.pairwise_cons.mp hm
    simp only [Memory.insert]
    split
    · refine List.pairwise_cons.mpr ⟨fun d hd => ?_, hm⟩
      rcases List.mem_cons.mp hd with rfl | hd
      · assumption
      · have := hk d hd; simp only at *; omega
    · split
      · subst_vars; exact List.pairwise_cons.mpr ⟨hk, hr⟩
      · refine List.pairwise_cons.mpr ⟨fun d hd => ?_, ih hr⟩
        rcases Memory.mem_insert hd with rfl | hd
        · simp only; omega
        · exact hk d hd

theorem Memory.erase_rising (m : Memory) (a : Nat) (hm : m.Pairwise (fun c d => c.1 < d.1)) :
    (Memory.erase a m).Pairwise (fun c d => c.1 < d.1) := by
  induction m with
  | nil => simp [Memory.erase]
  | cons c rest ih =>
    obtain ⟨k, v⟩ := c
    obtain ⟨hk, hr⟩ := List.pairwise_cons.mp hm
    simp only [Memory.erase]
    split
    · exact hr
    · exact List.pairwise_cons.mpr ⟨fun d hd => hk d (Memory.mem_of_mem_erase hd), ih hr⟩

/-- A write keeps the canonical form. -/
theorem Memory.wf_write {font : Font} {m : Memory} (a : Addr) (b : Byte) (hm : Memory.wf font m) :
    Memory.wf font (Memory.write font m a b) := by
  unfold Memory.write
  split
  · exact ⟨Memory.erase_rising m _ hm.1, fun c hc => hm.2 c (Memory.mem_of_mem_erase hc)⟩
  · refine ⟨Memory.insert_rising m _ b hm.1, fun c hc => ?_⟩
    rcases Memory.mem_insert hc with rfl | hc
    · exact ⟨by simpa using a.isLt, by assumption⟩
    · exact hm.2 c hc

/-- Memory after reset is in canonical form. -/
theorem Memory.wf_reset (p : Params) : Memory.wf (State.resetWith p).params.font (State.resetWith p).mem := by
  simp [State.resetWith, Memory.wf]

/-- What a read gives after a write. -/
theorem Memory.read_write {font : Font} {m : Memory} (a c : Addr) (b : Byte) (hm : Memory.wf font m) :
    Memory.read font (Memory.write font m a b) c = if c = a then b else Memory.read font m c := by
  unfold Memory.write Memory.read
  split
  · rw [Memory.find_erase m _ _ hm.1]
    by_cases h : c = a
    · subst h; simp [*]
    · rw [if_neg (by simpa [BitVec.toNat_inj] using h), if_neg h]
  · rw [Memory.find_insert m _ _ _ hm.1]
    by_cases h : c = a
    · subst h; simp
    · rw [if_neg (by simpa [BitVec.toNat_inj] using h), if_neg h]

/-! ### The same of a state -/

/-- What a byte reads as after a write. -/
theorem State.readByte_writeByte (s : State) (a c : Addr) (b : Byte) (hm : Memory.wf s.params.font s.mem) :
    (s.writeByte a b).readByte c = if c = a then b else s.readByte c :=
  Memory.read_write a c b hm

theorem State.writeByte_wf (s : State) (a : Addr) (b : Byte) (hm : Memory.wf s.params.font s.mem) :
    Memory.wf (s.writeByte a b).params.font (s.writeByte a b).mem :=
  Memory.wf_write a b hm

theorem State.writeBytes_wf (bytes : List Byte) (a : Word) (s : State) (hm : Memory.wf s.params.font s.mem) :
    Memory.wf (s.writeBytes a bytes).params.font (s.writeBytes a bytes).mem := by
  induction bytes generalizing a s with
  | nil => exact hm
  | cons b rest ih => exact ih _ _ (s.writeByte_wf _ _ hm)

/-- Copying bytes changes memory and nothing else. -/
theorem State.writeBytes_frame (bytes : List Byte) (a : Word) (s : State) :
    s.writeBytes a bytes = { s with mem := (s.writeBytes a bytes).mem } := by
  induction bytes generalizing a s with
  | nil => rfl
  | cons b rest ih => rw [State.writeBytes, ih]; rfl

end Sys2Proof.Machine
end

