-- ==== Sys2Proof/Laws/Ops.lean ====
section
/-! SUPPORT. One lemma per shared operation that says what it can do, which proofs cite instead of unfolding it. -/

namespace Sys2Proof.Machine

/-! ### How an instruction ends -/

/-- `complete` always answers a next state, the same state with a quiet `Effect`. -/
@[simp] theorem complete_eq_next (s t : State) : complete s = .next t ↔ t = s.report Effect.quiet := by
  simp [complete, eq_comm]

/-- `completeDirty` always answers a next state, the same state with `Effect` (1, None). -/
@[simp] theorem completeDirty_eq_next (s t : State) :
    completeDirty s = .next t ↔ t = s.report { fbDirty := true, fatal := none } := by
  simp [completeDirty, eq_comm]

/-- `raise` always answers a next state: the latch and the `Effect` carry the fault, nothing else changes. -/
@[simp] theorem raise_eq_next (f : StackFault) (s t : State) :
    raise f s = .next t ↔ t = { s with fault := some f, effect := { fbDirty := false, fatal := some f } } := by
  simp [raise, eq_comm]

/-- The `LoadProgram` event: before the first `Step` of a run it loads, after it the move does not exist. -/
@[simp] theorem loadEvent_eq_next (bytes : List Byte) (s t : State) :
    loadEvent bytes s = .next t ↔ s.started = false ∧ t = loadProgram bytes s := by
  cases h : s.started <;> simp [loadEvent, h, eq_comm]

theorem loadEvent_of_started (bytes : List Byte) {s : State} (h : s.started = true) :
    loadEvent bytes s = .fault .loadAfterFirstStep := by
  simp [loadEvent, h]

/-! ### Result and flag -/

/-- The flag is written last: with `x = F` it stays (41_load_and_alu.md R103). -/
@[simp] theorem State.setResultAndFlag_reg (s : State) (x : Reg) (b : Byte) (f : Bool) (r : Reg) :
    (s.setResultAndFlag x b f).reg r = if r = 15 then flagByte f else if r = x then b else s.reg r := by
  simp [State.setResultAndFlag, vf]

/-- Result and flag change the general registers only. -/
theorem State.setResultAndFlag_frame (s : State) (x : Reg) (b : Byte) (f : Bool) :
    s.setResultAndFlag x b f = { s with v := (s.setResultAndFlag x b f).v } := rfl

@[simp] theorem flagByte_toNat (f : Bool) : (flagByte f).toNat = if f = true then 1 else 0 := by
  cases f <;> rfl

/-! ### Runs of registers -/

/-- The registers of a run, by number. -/
theorem mem_regsUpTo (x k : Reg) : k ∈ regsUpTo x ↔ k.val ≤ x.val := by
  revert x k; decide

theorem regsUpTo_nodup (x : Reg) : (regsUpTo x).Nodup := by
  revert x; decide

/-- The loads change the general registers only. -/
theorem State.loadRegs_frame (ks : List Reg) (s : State) : s.loadRegs ks = { s with v := (s.loadRegs ks).v } := by
  induction ks generalizing s with
  | nil => rfl
  | cons k rest ih => rw [State.loadRegs, ih]; rfl

/-- The loads: each register of the run holds the byte at its own offset from `I`. -/
theorem State.loadRegs_reg (ks : List Reg) (s : State) (r : Reg) :
    (s.loadRegs ks).reg r = if r ∈ ks then s.readByte (s.indexAddr r) else s.reg r := by
  induction ks generalizing s with
  | nil => simp [State.loadRegs]
  | cons k rest ih =>
    rw [State.loadRegs, ih]
    simp only [State.setReg_readByte, State.setReg_indexAddr, State.setReg_reg, State.readIndexed_eq, List.mem_cons]
    by_cases h : r = k <;> by_cases h' : r ∈ rest <;> simp [h, h']

/-- The stores change memory only. -/
theorem State.storeRegs_frame (ks : List Reg) (s : State) : s.storeRegs ks = { s with mem := (s.storeRegs ks).mem } := by
  induction ks generalizing s with
  | nil => rfl
  | cons k rest ih => rw [State.storeRegs, ih]; rfl

theorem State.storeRegs_wf (ks : List Reg) (s : State) (hm : Memory.wf s.params.font s.mem) :
    Memory.wf (s.storeRegs ks).params.font (s.storeRegs ks).mem := by
  induction ks generalizing s with
  | nil => exact hm
  | cons k rest ih => exact ih _ (s.writeByte_wf _ _ hm)

/-- `EA(I + k)` as a number: `(I + k) mod 4096` (20_memory.md R41). -/
theorem State.indexAddr_toNat (s : State) (k : Nat) : (s.indexAddr k).toNat = (s.i.toNat + k) % 4096 := by
  simp only [State.indexAddr, ea, BitVec.toNat_setWidth, BitVec.toNat_add, BitVec.toNat_ofNat]
  omega

/-- Offsets below 4096 give different addresses (20_memory.md R47). -/
theorem State.indexAddr_inj (s : State) {j k : Nat} (hj : j < 4096) (hk : k < 4096)
    (h : s.indexAddr j = s.indexAddr k) : j = k := by
  have := congrArg BitVec.toNat h
  rw [s.indexAddr_toNat, s.indexAddr_toNat] at this
  omega

/-- An address outside the run reads as before. -/
theorem State.storeRegs_readByte_other (ks : List Reg) (s : State) (a : Addr)
    (hm : Memory.wf s.params.font s.mem) (ha : ∀ k ∈ ks, a ≠ s.indexAddr k) :
    (s.storeRegs ks).readByte a = s.readByte a := by
  induction ks generalizing s with
  | nil => rfl
  | cons k rest ih =>
    rw [State.storeRegs, State.writeIndexed_eq,
      ih _ (s.writeByte_wf _ _ hm) (fun j hj => ha j (List.mem_cons_of_mem _ hj)), State.readByte_writeByte _ _ _ _ hm, if_neg (ha k (by simp))]

/-- Each register of the run lands at its own offset from `I`. -/
theorem State.storeRegs_readByte (ks : List Reg) (s : State) (k : Reg) (hm : Memory.wf s.params.font s.mem)
    (hks : ks.Nodup) (hk : k ∈ ks) : (s.storeRegs ks).readByte (s.indexAddr k) = s.reg k := by
  induction ks generalizing s with
  | nil => simp at hk
  | cons j rest ih =>
    obtain ⟨hj, hr⟩ := List.nodup_cons.mp hks
    rw [State.storeRegs]
    rcases List.mem_cons.mp hk with rfl | hk
    · have := State.storeRegs_readByte_other rest (s.writeIndexed k (s.reg k)) (s.indexAddr k) (s.writeByte_wf _ _ hm)
        (fun i hi h => hj (by
          have := s.indexAddr_inj (by omega) (by omega) h
          rw [Fin.ext this]; exact hi))
      rw [this, State.writeIndexed_eq, State.readByte_writeByte _ _ _ _ hm, if_pos rfl]
    · exact ih (s.writeIndexed j (s.reg j)) (s.writeByte_wf _ _ hm) hr hk

end Sys2Proof.Machine
end

