-- ==== Sys2Proof/Laws/Exec.lean ====
section
/-! SUPPORT. What a call and a return can do, and how a step begins: the inversion lemmas that proofs cite instead of
unfolding `exec` and `step`. -/

namespace Sys2Proof.Machine

/-- The two ways a return answers a next state: the fault of an empty stack, or the top entry popped. -/
theorem exec_ret_cases {s t : State} (h : exec .ret s = .next t) :
    (s.sp = 0 ∧
      t = { s with fault := some .stackUnderflow, effect := { fbDirty := false, fatal := some .stackUnderflow } }) ∨
    (s.sp ≠ 0 ∧ ∃ a, s.topReturn = some a ∧ t = (s.dropReturn.setPc a).report Effect.quiet) := by
  simp only [exec, execRet] at h
  split at h
  · exact .inl ⟨‹_›, (raise_eq_next _ _ _).mp h⟩
  · split at h
    · exact .inr ⟨‹_›, _, ‹_›, (complete_eq_next _ _).mp h⟩
    · simp at h

/-- The two ways a call answers a next state: the fault of a full stack, or the advanced `pc` pushed. -/
theorem exec_call_cases {nnn : Addr} {s t : State} (h : exec (.call nnn) s = .next t) :
    (16 ≤ s.sp.toNat ∧
      t = { s with fault := some .stackOverflow, effect := { fbDirty := false, fatal := some .stackOverflow } }) ∨
    (s.sp.toNat < 16 ∧ t = ((s.pushReturn s.pc).setPc (zextAddr nnn)).report Effect.quiet) := by
  simp only [exec, execCall] at h
  split at h
  · exact .inl ⟨‹_›, (raise_eq_next _ _ _).mp h⟩
  · exact .inr ⟨by omega, (complete_eq_next _ _).mp h⟩

/-- The entry a return pops exists when `sp` is from 1 to 16. -/
theorem State.topReturn_eq (s : State) (h : 0 < s.sp.toNat ∧ s.sp.toNat ≤ 16) :
    s.topReturn = some (s.stack[s.sp.toNat - 1]'(by omega)) :=
  Vector.getElem?_eq_getElem (by omega)

/-- What a `Step` that begins with no fault latched does, by what the decoder answers. -/
theorem runStep_of_none {s : State} (h : s.fault = none) :
    runStep s = match decode s.fetchBytes with
      | .ok (i, _) => exec i s.advancePc
      | .error _ => execUnrecognized s.advancePc := by
  cases hd : decode s.fetchBytes <;> simp [runStep, h, hd]

/-- A step whose event is a `Step` is `runStep` in the state in which that `Step` begins. -/
theorem BeginsStep.step_eq {s s' : State} {inp : StepInput} (h : BeginsStep s inp s') : step s = runStep s' := by
  obtain ⟨hh, rfl, rfl⟩ | ⟨keys, rnd, rest, hh, rfl, rfl⟩ := h <;> simp only [step, hh] <;> rfl

/-- What one event can do when it answers a next state: one case per event. -/
theorem step_cases {s t : State} (h : step s = .next t) :
    (∃ inp s', BeginsStep s inp s' ∧ runStep s' = .next t) ∨
    (∃ rest, s.host = .tick :: rest ∧ t = tick { s with host := rest }) ∨
    (∃ rest, s.host = .reset :: rest ∧ t = resetEvent { s with host := rest }) ∨
    (∃ bytes rest, s.host = .loadProgram bytes :: rest ∧ s.started = false ∧
      t = loadProgram bytes { s with host := rest }) := by
  unfold step at h
  split at h
  case h_1 hh => exact .inl ⟨_, _, .inl ⟨hh, rfl, rfl⟩, h⟩
  case h_2 hh => exact .inl ⟨_, _, .inr ⟨_, _, _, hh, rfl, rfl⟩, h⟩
  case h_3 hh => exact .inr (.inl ⟨_, hh, by injection h with h; exact h.symm⟩)
  case h_4 hh => exact .inr (.inr (.inl ⟨_, hh, by injection h with h; exact h.symm⟩))
  case h_5 hh => exact .inr (.inr (.inr ⟨_, _, hh, (loadEvent_eq_next _ _ _).mp h⟩))

end Sys2Proof.Machine
end

