-- ==== Sys2Proof/Laws/PerInstr.lean ====
section
/-! SUPPORT. Statements for all instructions, one lemma per constructor. EncodesOwnRow: the word the encoder gives
matches the row of the opcode table with the instruction's mnemonic (30_encoding.md R66). -/

namespace Sys2Proof

/-- The mnemonic of an instruction's row (30_encoding.md R71). -/
def Instr.mnemonic : Instr → String
  | .cls => "CLS"
  | .ret => "RET"
  | .jp _ => "JP"
  | .call _ => "CALL"
  | .se _ _ => "SE"
  | .sne _ _ => "SNE"
  | .ldi _ _ => "LDI"
  | .addi _ _ => "ADDI"
  | .mov _ _ => "MOV"
  | .or _ _ => "OR"
  | .and _ _ => "AND"
  | .xor _ _ => "XOR"
  | .add _ _ => "ADD"
  | .sub _ _ => "SUB"
  | .shr _ _ => "SHR"
  | .subn _ _ => "SUBN"
  | .shl _ _ => "SHL"
  | .ldidx _ => "LDIDX"
  | .jpv0 _ => "JPV0"
  | .rnd _ _ => "RND"
  | .drw _ _ _ => "DRW"
  | .skp _ => "SKP"
  | .sknp _ => "SKNP"
  | .gdt _ => "GDT"
  | .sdt _ => "SDT"
  | .sst _ => "SST"
  | .addidx _ => "ADDIDX"
  | .bcd _ => "BCD"
  | .stm _ => "STM"
  | .ldm _ => "LDM"

/-- The encoded word matches the instruction's own row. -/
def Laws.EncodesOwnRow.Statement (i : Instr) : Prop :=
  ∃ r ∈ opcodeTable, r.mnemonic = i.mnemonic ∧ encode i &&& r.mask = r.pattern

/-- A row with the instruction's mnemonic whose mask and pattern fit its word is enough. -/
theorem Laws.ownRow_of_mem {i : Instr} (mask pattern : Word) (h : (⟨i.mnemonic, pattern, mask⟩ : OpcodeRow) ∈ opcodeTable)
    (hw : encode i &&& mask = pattern) : Laws.EncodesOwnRow.Statement i :=
  ⟨_, h, rfl, hw⟩

namespace Laws.EncodesOwnRow

theorem cls : Statement .cls := ownRow_of_mem 0xFFFF 0x00E0 (by simp [opcodeTable, Instr.mnemonic]) (by decide)
theorem ret : Statement .ret := ownRow_of_mem 0xFFFF 0x00EE (by simp [opcodeTable, Instr.mnemonic]) (by decide)
theorem jp (nnn : Addr) : Statement (.jp nnn) :=
  ownRow_of_mem 0xF000 0x1000 (by simp [opcodeTable, Instr.mnemonic]) ((formatNNN_and_mask _ _).trans (by decide))
theorem call (nnn : Addr) : Statement (.call nnn) :=
  ownRow_of_mem 0xF000 0x2000 (by simp [opcodeTable, Instr.mnemonic]) ((formatNNN_and_mask _ _).trans (by decide))
theorem se (x : Reg) (nn : Byte) : Statement (.se x nn) :=
  ownRow_of_mem 0xF000 0x3000 (by simp [opcodeTable, Instr.mnemonic]) ((formatXNN_and_mask _ _ _).trans (by decide))
theorem sne (x : Reg) (nn : Byte) : Statement (.sne x nn) :=
  ownRow_of_mem 0xF000 0x4000 (by simp [opcodeTable, Instr.mnemonic]) ((formatXNN_and_mask _ _ _).trans (by decide))
theorem ldi (x : Reg) (nn : Byte) : Statement (.ldi x nn) :=
  ownRow_of_mem 0xF000 0x6000 (by simp [opcodeTable, Instr.mnemonic]) ((formatXNN_and_mask _ _ _).trans (by decide))
theorem addi (x : Reg) (nn : Byte) : Statement (.addi x nn) :=
  ownRow_of_mem 0xF000 0x7000 (by simp [opcodeTable, Instr.mnemonic]) ((formatXNN_and_mask _ _ _).trans (by decide))
theorem mov (x y : Reg) : Statement (.mov x y) :=
  ownRow_of_mem 0xF00F 0x8000 (by simp [opcodeTable, Instr.mnemonic]) ((formatXYN_and_mask_sub _ _ _ _).trans (by decide))
theorem or (x y : Reg) : Statement (.or x y) :=
  ownRow_of_mem 0xF00F 0x8001 (by simp [opcodeTable, Instr.mnemonic]) ((formatXYN_and_mask_sub _ _ _ _).trans (by decide))
theorem and (x y : Reg) : Statement (.and x y) :=
  ownRow_of_mem 0xF00F 0x8002 (by simp [opcodeTable, Instr.mnemonic]) ((formatXYN_and_mask_sub _ _ _ _).trans (by decide))
theorem xor (x y : Reg) : Statement (.xor x y) :=
  ownRow_of_mem 0xF00F 0x8003 (by simp [opcodeTable, Instr.mnemonic]) ((formatXYN_and_mask_sub _ _ _ _).trans (by decide))
theorem add (x y : Reg) : Statement (.add x y) :=
  ownRow_of_mem 0xF00F 0x8004 (by simp [opcodeTable, Instr.mnemonic]) ((formatXYN_and_mask_sub _ _ _ _).trans (by decide))
theorem sub (x y : Reg) : Statement (.sub x y) :=
  ownRow_of_mem 0xF00F 0x8005 (by simp [opcodeTable, Instr.mnemonic]) ((formatXYN_and_mask_sub _ _ _ _).trans (by decide))
theorem shr (x y : Reg) : Statement (.shr x y) :=
  ownRow_of_mem 0xF00F 0x8006 (by simp [opcodeTable, Instr.mnemonic]) ((formatXYN_and_mask_sub _ _ _ _).trans (by decide))
theorem subn (x y : Reg) : Statement (.subn x y) :=
  ownRow_of_mem 0xF00F 0x8007 (by simp [opcodeTable, Instr.mnemonic]) ((formatXYN_and_mask_sub _ _ _ _).trans (by decide))
theorem shl (x y : Reg) : Statement (.shl x y) :=
  ownRow_of_mem 0xF00F 0x800E (by simp [opcodeTable, Instr.mnemonic]) ((formatXYN_and_mask_sub _ _ _ _).trans (by decide))
theorem ldidx (nnn : Addr) : Statement (.ldidx nnn) :=
  ownRow_of_mem 0xF000 0xA000 (by simp [opcodeTable, Instr.mnemonic]) ((formatNNN_and_mask _ _).trans (by decide))
theorem jpv0 (nnn : Addr) : Statement (.jpv0 nnn) :=
  ownRow_of_mem 0xF000 0xB000 (by simp [opcodeTable, Instr.mnemonic]) ((formatNNN_and_mask _ _).trans (by decide))
theorem rnd (x : Reg) (nn : Byte) : Statement (.rnd x nn) :=
  ownRow_of_mem 0xF000 0xC000 (by simp [opcodeTable, Instr.mnemonic]) ((formatXNN_and_mask _ _ _).trans (by decide))
theorem drw (x y : Reg) (n : BitVec 4) : Statement (.drw x y n) :=
  ownRow_of_mem 0xF000 0xD000 (by simp [opcodeTable, Instr.mnemonic]) ((formatXYN_and_mask _ _ _ _).trans (by decide))
theorem skp (x : Reg) : Statement (.skp x) :=
  ownRow_of_mem 0xF0FF 0xE09E (by simp [opcodeTable, Instr.mnemonic]) ((formatXNN_and_mask_sub _ _ _).trans (by decide))
theorem sknp (x : Reg) : Statement (.sknp x) :=
  ownRow_of_mem 0xF0FF 0xE0A1 (by simp [opcodeTable, Instr.mnemonic]) ((formatXNN_and_mask_sub _ _ _).trans (by decide))
theorem gdt (x : Reg) : Statement (.gdt x) :=
  ownRow_of_mem 0xF0FF 0xF007 (by simp [opcodeTable, Instr.mnemonic]) ((formatXNN_and_mask_sub _ _ _).trans (by decide))
theorem sdt (x : Reg) : Statement (.sdt x) :=
  ownRow_of_mem 0xF0FF 0xF015 (by simp [opcodeTable, Instr.mnemonic]) ((formatXNN_and_mask_sub _ _ _).trans (by decide))
theorem sst (x : Reg) : Statement (.sst x) :=
  ownRow_of_mem 0xF0FF 0xF018 (by simp [opcodeTable, Instr.mnemonic]) ((formatXNN_and_mask_sub _ _ _).trans (by decide))
theorem addidx (x : Reg) : Statement (.addidx x) :=
  ownRow_of_mem 0xF0FF 0xF01E (by simp [opcodeTable, Instr.mnemonic]) ((formatXNN_and_mask_sub _ _ _).trans (by decide))
theorem bcd (x : Reg) : Statement (.bcd x) :=
  ownRow_of_mem 0xF0FF 0xF033 (by simp [opcodeTable, Instr.mnemonic]) ((formatXNN_and_mask_sub _ _ _).trans (by decide))
theorem stm (x : Reg) : Statement (.stm x) :=
  ownRow_of_mem 0xF0FF 0xF055 (by simp [opcodeTable, Instr.mnemonic]) ((formatXNN_and_mask_sub _ _ _).trans (by decide))
theorem ldm (x : Reg) : Statement (.ldm x) :=
  ownRow_of_mem 0xF0FF 0xF065 (by simp [opcodeTable, Instr.mnemonic]) ((formatXNN_and_mask_sub _ _ _).trans (by decide))

end Laws.EncodesOwnRow

end Sys2Proof
end

