-- ==== Sys2Proof/Tests/Slice0.lean ====
section
/-! SUPPORT. The model's own tests. Expected results are the worked examples of the rules and the vectors of
95_test_vectors.md (named in each comment as table.row); words are written out from 30_encoding.md R66. -/

namespace Sys2Proof.Machine

/-! ### Well-formedness: each check refuses an ill-formed term -/

theorem test_field4_refuses_16 : fieldFits 4 16 = false := by decide
theorem test_field8_refuses_256 : fieldFits 8 256 = false := by decide
theorem test_field12_refuses_4096 : fieldFits 12 4096 = false := by decide
theorem test_field_accepts_largest : fieldFits 4 15 = true ∧ fieldFits 8 255 = true ∧ fieldFits 12 4095 = true := by decide
theorem test_operands_are_checked : (Instr.drw 1 2 3).operands = [(4, 1), (4, 2), (4, 3)] := by decide
/-- 2.7.4 -/
theorem test_program_of_3585_refused : programFits (List.replicate 3585 0) = false :=
  decide_eq_false (by rw [List.length_replicate]; decide)
/-- 2.7.3 -/
theorem test_program_of_3584_fits : programFits (List.replicate 3584 0) = true :=
  decide_eq_true (by rw [List.length_replicate]; decide)

/-! ### Decoding: every row's word, bit by bit -/

theorem test_decode_control :
    decodeWord 0b0000_0000_1110_1110 = .ok .ret ∧ decodeWord 0b0001_1010_1011_1100 = .ok (.jp 0xABC) ∧
    decodeWord 0b0010_0010_0000_1010 = .ok (.call 0x20A) ∧ decodeWord 0b0011_0011_0100_0010 = .ok (.se 3 0x42) ∧
    decodeWord 0b0100_1111_0000_0001 = .ok (.sne 15 0x01) ∧ decodeWord 0b1011_0011_1010_1010 = .ok (.jpv0 0x3AA) := by
  decide

theorem test_decode_load_and_alu :
    decodeWord 0b0110_1010_0010_1011 = .ok (.ldi 10 0x2B) ∧ decodeWord 0b0111_0001_1111_1111 = .ok (.addi 1 0xFF) ∧
    decodeWord 0b1000_0001_0010_0000 = .ok (.mov 1 2) ∧ decodeWord 0b1000_0001_0010_0001 = .ok (.or 1 2) ∧
    decodeWord 0b1000_0001_0010_0010 = .ok (.and 1 2) ∧ decodeWord 0b1000_0001_0010_0011 = .ok (.xor 1 2) ∧
    decodeWord 0b1000_0001_0010_0100 = .ok (.add 1 2) ∧ decodeWord 0b1000_0001_0010_0101 = .ok (.sub 1 2) ∧
    decodeWord 0b1000_0001_0010_0110 = .ok (.shr 1 2) ∧ decodeWord 0b1000_0001_0010_0111 = .ok (.subn 1 2) ∧
    decodeWord 0b1000_0001_0010_1110 = .ok (.shl 1 2) ∧ decodeWord 0b1100_0011_0000_1111 = .ok (.rnd 3 0x0F) := by
  decide

theorem test_decode_index_display_keypad_timer :
    decodeWord 0b1010_0010_1111_0000 = .ok (.ldidx 0x2F0) ∧ decodeWord 0b1111_0010_0001_1110 = .ok (.addidx 2) ∧
    decodeWord 0b1111_0111_0011_0011 = .ok (.bcd 7) ∧ decodeWord 0b1111_0011_0101_0101 = .ok (.stm 3) ∧
    decodeWord 0b1111_0100_0110_0101 = .ok (.ldm 4) ∧ decodeWord 0b0000_0000_1110_0000 = .ok .cls ∧
    decodeWord 0b1101_0000_0001_0010 = .ok (.drw 0 1 2) ∧ decodeWord 0b1110_0011_1001_1110 = .ok (.skp 3) ∧
    decodeWord 0b1110_0011_1010_0001 = .ok (.sknp 3) ∧ decodeWord 0b1111_0100_0000_0111 = .ok (.gdt 4) ∧
    decodeWord 0b1111_0100_0001_0101 = .ok (.sdt 4) ∧ decodeWord 0b1111_0100_0001_1000 = .ok (.sst 4) := by
  decide

/-- The words other descriptions give a meaning, and the near misses of R141 and R144 to R146. -/
theorem test_unrecognized_words :
    decodeWord 0x0000 = .error .family0 ∧ decodeWord 0x01E0 = .error .family0 ∧ decodeWord 0x0AEE = .error .family0 ∧
    decodeWord 0x5120 = .error .family5 ∧ decodeWord 0x9120 = .error .family9 ∧ decodeWord 0x8128 = .error .family8 ∧
    decodeWord 0xE19F = .error .familyE ∧ decodeWord 0xF00A = .error .familyF ∧ decodeWord 0xF129 = .error .familyF := by
  decide

/-- The two ends of each class (the clauses of `Obligations.UnrecognizedWordsByClass`). -/
theorem witness_UnrecognizedWordsByClass :
    decodeWord 0x00DF = .error .family0 ∧ decodeWord 0x0FFF = .error .family0 ∧ decodeWord 0x5000 = .error .family5 ∧
    decodeWord 0x5FFF = .error .family5 ∧ decodeWord 0x9000 = .error .family9 ∧ decodeWord 0x9FFF = .error .family9 ∧
    decodeWord 0x8008 = .error .family8 ∧ decodeWord 0x8FFF = .error .family8 ∧ decodeWord 0xE000 = .error .familyE ∧
    decodeWord 0xEFFF = .error .familyE ∧ decodeWord 0xF000 = .error .familyF ∧ decodeWord 0xFFFF = .error .familyF := by
  decide

theorem test_decodeTableWord : decodeTableWord 16 0xD012 = some (.drw 0 1 2) ∧ decodeTableWord 16 0x5120 = none := by decide
theorem test_decode_leaves_the_rest : decode [0x12, 0x04, 0xAA] = .ok (.jp 0x204, [0xAA]) ∧ decode [0x12] = .error .truncated := by
  decide
theorem test_encode_words : encode (.se 1 0x00) = 0x3100 ∧ encode (.shl 1 2) = 0x812E ∧ encode (.ldm 2) = 0xF265 := by decide

/-! ### One step on a small state -/

/-- The machine after reset with a word at 0x200. -/
def atReset (w : Nat) : State := State.reset.withFetchWord 16 w

/-- What is seen of the next state of a step. -/
def afterStep {α : Type} (s : State) (f : State → α) : Option α :=
  match step s with
  | .next t => some (f t)
  | _ => none

/-- After reset with nothing placed: the word 0x0000 does nothing (2.7.5). -/
theorem test_reset_step : afterStep State.reset (fun t => (t.pc, t.mem, t.fault)) = some (0x202, [], none) := by decide
/-- 2.7.1 -/
theorem test_fetch_wraps : afterStep (({ State.reset with pc := 0x0FFF }).withFetchWord 16 0x6A55)
    (fun t => (t.reg 10, t.pc)) = some (0x55, 0x1001) := by decide
/-- 2.7.6 -/
theorem test_fetch_masks_pc : afterStep ({ (atReset 0x6011) with pc := 0x1200 }) (fun t => (t.reg 0, t.pc)) = some (0x11, 0x1202) := by
  decide
/-- 2.7.9, 2.7.10 -/
theorem test_unrecognized_step : afterStep { (atReset 0xF129) with i := 0x123 } (fun t => (t.pc, t.i, t.v)) =
    some (0x202, 0x123, State.reset.v) := by decide
/-- 2.7.11 -/
theorem test_near_miss_clears_nothing : afterStep { (atReset 0x01E0) with fb := togglePixel blankScreen 0 }
    (fun t => (t.pixel 0, t.effect)) = some (true, Effect.quiet) := by decide
/-- 2.7.3: the last byte of the largest program lands on 0xFFF; here two bytes from 0x200. -/
theorem test_loadProgram : afterStep { State.reset with host := [.loadProgram [0x22, 0x00]] }
    (fun t => (t.readByte 0x200, t.readByte 0x201, t.readByte 0x202, t.loadResult)) = some (0x22, 0x00, 0x00, .ok) := by decide
/-- 70_reset_and_hazards.md R186: a `Step` takes the host's move `LoadProgram` away. -/
theorem test_step_starts_the_run : afterStep { State.reset with host := [.step 0 0] } State.started = some true := by decide
/-- 70_reset_and_hazards.md R186: `LoadProgram` after the first `Step` is no move of the host's. -/
theorem test_late_load_stops :
    step { State.reset with started := true, host := [.loadProgram [0x22]] } = .fault .loadAfterFirstStep := rfl
/-- 2.6.1 -/
theorem test_tick_counts : afterStep { State.reset with dt := 0x03, st := 0x01, host := [.tick] }
    (fun t => (t.dt, t.st)) = some (0x02, 0x00) := by decide
/-- 2.6.3, 2.6.4 -/
theorem test_tick_clamps_while_halted : afterStep
    { State.reset with dt := 0x00, st := 0xFF, host := [.tick], fault := some .stackOverflow }
    (fun t => (t.dt, t.st, t.fault)) = some (0x00, 0xFE, some .stackOverflow) := by decide
/-- 2.7.14 -/
theorem test_reset_event : afterStep
    { (atReset 0x6A2B) with fault := some .stackUnderflow, dt := 5, pc := 0x333, host := [.reset] } id = some State.reset := by
  decide

/-- 2.1.2 -/
theorem test_ret : afterStep { (atReset 0x00EE) with sp := 2, stack := (State.reset.stack.set 0 0x0206).set 1 0x0404 }
    (fun t => (t.pc, t.sp, t.stack[1]!)) = some (0x404, 1, 0x404) := by decide
/-- 2.1.3 -/
theorem test_ret_underflow : afterStep (atReset 0x00EE) (fun t => (t.fault, t.pc, t.sp, t.effect)) =
    some (some .stackUnderflow, 0x202, 0, ⟨false, some .stackUnderflow⟩) := by decide
/-- 2.1.4 -/
theorem test_jp : afterStep (atReset 0x1ABC) State.pc = some 0xABC := by decide
/-- 2.1.8 -/
theorem test_call : afterStep { (atReset 0x2400) with sp := 0x0F } (fun t => (t.stack[15]!, t.sp, t.pc)) =
    some (0x202, 0x10, 0x400) := by decide
/-- 2.1.9 -/
theorem test_call_overflow : afterStep { (atReset 0x2400) with sp := 0x10 } (fun t => (t.fault, t.pc, t.sp, t.stack)) =
    some (some .stackOverflow, 0x202, 0x10, State.reset.stack) := by decide
/-- 2.1.10 -/
theorem test_se_skips : afterStep ((atReset 0x3342).setReg 3 0x42) State.pc = some 0x204 := by decide
/-- 2.1.18: the skip wraps modulo 65536. -/
theorem test_se_wraps : afterStep (({ State.reset with pc := 0xFFFC }).withFetchWord 16 0x3500) State.pc = some 0 := by decide
/-- 2.1.12 -/
theorem test_sne_stays : afterStep ((atReset 0x4342).setReg 3 0x42) State.pc = some 0x202 := by decide
/-- 2.1.13 -/
theorem test_sne_skips : afterStep ((atReset 0x4342).setReg 3 0x41) State.pc = some 0x204 := by decide
/-- 2.1.16 -/
theorem test_jpv0_unmasked : afterStep ((atReset 0xBFFF).setReg 0 0xFF) State.pc = some 0x10FE := by decide
/-- 2.1.17 -/
theorem test_jpv0_uses_v0 : afterStep ((atReset 0xB3AA).setReg 3 0x55) State.pc = some 0x3AA := by decide

/-- 2.2.1 -/
theorem test_ldi : afterStep (atReset 0x6A2B) (fun t => (t.reg 10, t.pc)) = some (0x2B, 0x202) := by decide
/-- 2.2.3 -/
theorem test_addi_wraps : afterStep ((atReset 0x7102).setReg 1 0xFF) (fun t => (t.reg 1, t.reg 15)) = some (0x01, 0x00) := by decide
/-- 2.2.51 -/
theorem test_addi_on_vf : afterStep ((atReset 0x7F01).setReg 15 0x07) (fun t => t.reg 15) = some 0x08 := by decide
/-- 2.2.6 -/
theorem test_mov : afterStep ((atReset 0x8120).setReg 2 0x37) (fun t => (t.reg 1, t.reg 2)) = some (0x37, 0x37) := by decide
/-- 2.2.7: `VF` is not cleared. -/
theorem test_or : afterStep ((((atReset 0x8011).setReg 0 0xF0).setReg 1 0x0F).setReg 15 1) (fun t => (t.reg 0, t.reg 15)) =
    some (0xFF, 0x01) := by decide
/-- 2.2.8 -/
theorem test_and : afterStep (((atReset 0x8012).setReg 0 0xF3).setReg 1 0x3C) (fun t => t.reg 0) = some 0x30 := by decide
/-- 2.2.9 -/
theorem test_xor : afterStep (((atReset 0x8013).setReg 0 0xFF).setReg 1 0x0F) (fun t => t.reg 0) = some 0xF0 := by decide
/-- 2.2.11 -/
theorem test_add_carry : afterStep (((atReset 0x8124).setReg 1 0xFF).setReg 2 0x01) (fun t => (t.reg 1, t.reg 15)) =
    some (0x00, 0x01) := by decide
/-- 2.2.38: with `x = F` the flag stays. -/
theorem test_add_to_vf : afterStep (((atReset 0x8F14).setReg 15 0x01).setReg 1 0x02) (fun t => t.reg 15) = some 0x00 := by decide
/-- 2.2.19 -/
theorem test_sub_borrow : afterStep ((((atReset 0x8125).setReg 1 0x00).setReg 2 0x01).setReg 15 1)
    (fun t => (t.reg 1, t.reg 15)) = some (0xFF, 0x00) := by decide
/-- 2.2.47: with `y = F` the old `VF` is subtracted. -/
theorem test_sub_of_vf : afterStep (((atReset 0x81F5).setReg 1 0x10).setReg 15 0x01) (fun t => (t.reg 1, t.reg 15)) =
    some (0x0F, 0x01) := by decide
/-- 2.2.29: the old `V[x]` is not used. -/
theorem test_shr_reads_vy : afterStep (((atReset 0x8126).setReg 1 0x77).setReg 2 0xFF) (fun t => (t.reg 1, t.reg 2, t.reg 15)) =
    some (0x7F, 0xFF, 0x01) := by decide
/-- 2.2.42 -/
theorem test_shr_to_vf : afterStep (((atReset 0x8F16).setReg 15 0x09).setReg 1 0x03) (fun t => t.reg 15) = some 0x01 := by decide
/-- 2.2.25 -/
theorem test_subn : afterStep (((atReset 0x8127).setReg 1 0x00).setReg 2 0xFF) (fun t => (t.reg 1, t.reg 15)) =
    some (0xFF, 0x01) := by decide
/-- 2.2.26 -/
theorem test_subn_borrow : afterStep ((((atReset 0x8127).setReg 1 0xFF).setReg 2 0x00).setReg 15 1)
    (fun t => (t.reg 1, t.reg 15)) = some (0x01, 0x00) := by decide
/-- 2.2.32 -/
theorem test_shl_no_bit_out : afterStep ((((atReset 0x812E).setReg 1 0x77).setReg 2 0x7F).setReg 15 1)
    (fun t => (t.reg 1, t.reg 15)) = some (0xFE, 0x00) := by decide
/-- 2.2.50 -/
theorem test_shl_of_vf : afterStep (((atReset 0x81FE).setReg 1 0x10).setReg 15 0x81) (fun t => (t.reg 1, t.reg 15)) =
    some (0x02, 0x01) := by decide
/-- 2.2.35 -/
theorem test_rnd : afterStep { (atReset 0xC30F) with host := [.step 0x0000 0xB7] } (fun t => (t.reg 3, t.host)) =
    some (0x07, []) := by decide

/-- 2.3.1 -/
theorem test_ldidx : afterStep { (atReset 0xA2F0) with i := 0x1234 } State.i = some 0x02F0 := by decide
/-- 2.3.3 -/
theorem test_addidx_unmasked : afterStep { ((atReset 0xF21E).setReg 2 0x02) with i := 0x0FFF } (fun t => (t.i, t.reg 15)) =
    some (0x1001, 0x00) := by decide
/-- 2.3.4 -/
theorem test_addidx_wraps : afterStep { ((atReset 0xF21E).setReg 2 0x01) with i := 0xFFFF } State.i = some 0x0000 := by decide
/-- 2.3.5 -/
theorem test_bcd : afterStep { ((atReset 0xF033).setReg 0 0x9D) with i := 0x300 }
    (fun t => (t.readByte 0x300, t.readByte 0x301, t.readByte 0x302, t.i)) = some (1, 5, 7, 0x300) := by decide
/-- 2.3.9 -/
theorem test_bcd_wraps : afterStep { ((atReset 0xF733).setReg 7 0xFF) with i := 0x0FFF }
    (fun t => (t.readByte 0xFFF, t.readByte 0x000, t.readByte 0x001)) = some (2, 5, 5) := by decide
/-- 2.3.6 -/
theorem test_stm : afterStep { (((((atReset 0xF255).setReg 0 0x11).setReg 1 0x22).setReg 2 0x33).setReg 3 0x44) with i := 0x300 }
    (fun t => (t.readByte 0x300, t.readByte 0x302, t.readByte 0x303, t.i)) = some (0x11, 0x33, 0x00, 0x300) := by decide
/-- 2.3.8 -/
theorem test_stm_wraps : afterStep { (((((atReset 0xF355).setReg 0 0xA0).setReg 1 0xA1).setReg 2 0xA2).setReg 3 0xA3) with i := 0xFFE }
    (fun t => (t.readByte 0xFFF, t.readByte 0x000, t.readByte 0x001)) = some (0xA1, 0xA2, 0xA3) := by decide
/-- 2.3.12: the address is masked. -/
theorem test_ldm_masks : afterStep { ((atReset 0xF065).writeByte 0x300 0x7E) with i := 0x1300 } (fun t => (t.reg 0, t.reg 1)) =
    some (0x7E, 0x00) := by decide
/-- 2.3.13: glyph 0 of the default font. -/
theorem test_ldm_reads_the_font : afterStep { (atReset 0xF465) with i := 0x0050 }
    (fun t => [t.reg 0, t.reg 1, t.reg 2, t.reg 3, t.reg 4, t.reg 5]) = some [0xF0, 0x90, 0x90, 0x90, 0xF0, 0x00] := by decide

/-- 2.4.1 -/
theorem test_cls : afterStep ({ (atReset 0x00E0) with fb := togglePixel (togglePixel blankScreen 100) 2047 }.setReg 15 1)
    (fun t => (t.fb, t.reg 15, t.effect)) = some (blankScreen, 1, ⟨true, none⟩) := by decide
/-- 2.4.4: wrap at the right edge, collision at `FB[64]`. -/
theorem test_drw_wraps_and_collides : afterStep
    { ((((atReset 0xD011).writeByte 0x300 0xF0).setReg 0 0x7E).setReg 1 0x21) with i := 0x300, fb := togglePixel blankScreen 64 }
    (fun t => (t.pixel 126, t.pixel 127, t.pixel 64, t.pixel 65, t.pixel 66, t.reg 15)) =
    some (true, true, false, true, false, 1) := by decide
/-- 2.4.7: the position is read before the flag is written. -/
theorem test_drw_position_from_vf : afterStep { (((atReset 0xDF11).writeByte 0x300 0x80).setReg 15 0x05) with i := 0x300 }
    (fun t => (t.pixel 5, t.pixel 0, t.reg 15, t.effect)) = some (true, false, 0, ⟨true, none⟩) := by decide

/-- 2.5.6: key 1A mod 10 = A. -/
theorem test_skp_masks_the_key : afterStep { ((atReset 0xE39E).setReg 3 0x1A) with host := [.step 0x0400 0] } State.pc =
    some 0x204 := by decide
/-- 2.5.3 -/
theorem test_skp_other_keys : afterStep { ((atReset 0xE39E).setReg 3 0x05) with host := [.step 0xFFDF 0] } State.pc =
    some 0x202 := by decide
/-- 2.5.5 -/
theorem test_sknp_skips : afterStep { ((atReset 0xE3A1).setReg 3 0x05) with host := [.step 0x0000 0] } State.pc =
    some 0x204 := by decide
/-- 2.5.8 -/
theorem test_sknp_without_keypad : afterStep
    { ((atReset 0xE3A1).setReg 3 0x05) with host := [.step 0x0000 0], params := ⟨Config.defaultFont, false⟩ } State.pc =
    some 0x202 := by decide
/-- 2.5.9 -/
theorem test_gdt : afterStep { (atReset 0xF407) with dt := 0x3C } (fun t => (t.reg 4, t.dt)) = some (0x3C, 0x3C) := by decide
/-- 2.5.12 -/
theorem test_sdt : afterStep { (atReset 0xF415) with dt := 0x07 } (fun t => (t.dt, t.st)) = some (0x00, 0x00) := by decide
/-- 2.5.11 -/
theorem test_sst : afterStep ((atReset 0xF418).setReg 4 0x0A) (fun t => (t.st, t.dt)) = some (0x0A, 0x00) := by decide

/-! ### Witnesses: concrete states and operands that meet the hypotheses of each statement together -/

/-- The reset state meets the invariant. -/
theorem reset_inv : State.reset.Inv :=
  ⟨Memory.wf_reset _, by decide, by decide, by decide, by decide, by decide⟩

theorem reset_wf : Memory.wf State.reset.params.font State.reset.mem := Memory.wf_reset _

theorem witness_EncodeOfDecodeIsTheWord : decodeWord 0xD012 = .ok (.drw 0 1 2) := by decide
theorem witness_RecognizedWordsAreTheTablesRows :
    (⟨"ADD", 0x8004, 0xF00F⟩ : OpcodeRow) ∈ opcodeTable ∧ (0x8124 : Word) &&& 0xF00F = 0x8004 := by decide
theorem witness_StepRunsTheDecodedInstruction_free :
    BeginsStep (atReset 0x6A2B) (.free 0) { (atReset 0x6A2B) with input := .free 0, drawn := 1, started := true } ∧
    (atReset 0x6A2B).fault = none ∧ decode (atReset 0x6A2B).fetchBytes = .ok (.ldi 10 0x2B, []) :=
  ⟨.inl ⟨rfl, rfl, rfl⟩, rfl, by decide⟩
theorem witness_StepRunsTheDecodedInstruction_given :
    BeginsStep { (atReset 0xC30F) with host := [.step 0 0xB7] } (.given 0 0xB7)
      { (atReset 0xC30F) with input := .given 0 0xB7, host := [], started := true } ∧
    decode (atReset 0xC30F).fetchBytes = .ok (.rnd 3 0x0F, []) :=
  ⟨.inr ⟨0, 0xB7, [], rfl, rfl, rfl⟩, by decide⟩
theorem witness_UnrecognizedWordIsANoOp :
    BeginsStep (atReset 0x5120) (.free 0) { (atReset 0x5120) with input := .free 0, drawn := 1, started := true } ∧
    (atReset 0x5120).fault = none ∧ decode (atReset 0x5120).fetchBytes = .error (.unrecognized .family5) :=
  ⟨.inl ⟨rfl, rfl, rfl⟩, rfl, by decide⟩
theorem witness_LatchStopsStepsAndNotTicks :
    BeginsStep { State.reset with fault := some .stackOverflow } (.free 0)
      { State.reset with fault := some .stackOverflow, input := .free 0, drawn := 1, started := true } ∧
    { State.reset with host := [.tick] }.host = .tick :: [] :=
  ⟨.inl ⟨rfl, rfl, rfl⟩, rfl⟩
/-- For the statements whose hypothesis is that memory is in canonical form: a memory with a listed byte in the font. -/
theorem witness_MemoryReadsTheLastWrite :
    Memory.wf (State.reset.writeByte 0x050 0x12).params.font (State.reset.writeByte 0x050 0x12).mem ∧
    (State.reset.writeByte 0x050 0x12).mem = [(0x050, 0x12)] :=
  ⟨State.writeByte_wf _ _ _ reset_wf, by decide⟩
theorem witness_MemoriesThatReadAlikeAreEqual :
    Memory.wf Config.defaultFont [(0x300, 5)] ∧
    ∀ a, Memory.read Config.defaultFont [(0x300, 5)] a = Memory.read Config.defaultFont [(0x300, 5)] a :=
  ⟨by decide, fun _ => rfl⟩
/-- Both bytes stored (`I = pc`, `x` from 1 on, and `Fx33`), the first only (`x = 0`), none (`I` elsewhere). -/
theorem witness_StoreIsSeenByTheNextFetch :
    Memory.wf State.reset.params.font State.reset.mem ∧
    ea (State.reset.pc + BitVec.ofNat 16 0) = { State.reset with i := 0x200 }.indexAddr (0 : Reg).val ∧
    ea (State.reset.pc + BitVec.ofNat 16 1) = { State.reset with i := 0x200 }.indexAddr (1 : Reg).val ∧
    ea (State.reset.pc + BitVec.ofNat 16 0) = { State.reset with i := 0x1FE }.indexAddr 2 ∧
    (∀ j : Reg, j.val ≤ 0 → ea (State.reset.pc + BitVec.ofNat 16 1) ≠ { State.reset with i := 0x200 }.indexAddr j.val) ∧
    (∀ j < 3, ea (State.reset.pc + BitVec.ofNat 16 0) ≠ { State.reset with i := 0x300 }.indexAddr j) :=
  ⟨reset_wf, by decide, by decide, by decide, by decide, by decide⟩
theorem witness_TickDecrementsTheTimers :
    { State.reset with host := [.tick], fault := some .stackOverflow }.host = .tick :: [] := rfl
theorem witness_ResetEventInitializes :
    { State.reset with host := [.reset], fault := some .stackOverflow }.host = .reset :: [] := rfl
theorem witness_LoadProgramCopiesTheBytes_largest :
    { State.reset with host := [.loadProgram (List.replicate 3584 1)] }.host = .loadProgram (List.replicate 3584 1) :: [] ∧
    State.reset.started = false ∧ (List.replicate 3584 (1 : Byte)).length ≤ 3584 ∧ Memory.wf State.reset.params.font State.reset.mem :=
  ⟨rfl, rfl, by rw [List.length_replicate], reset_wf⟩
theorem witness_LoadProgramCopiesTheBytes_empty :
    { State.reset with host := [.loadProgram []] }.host = .loadProgram [] :: [] ∧ ([] : List Byte).length ≤ 3584 := ⟨rfl, by simp⟩
theorem witness_ProgramTooLargeChangesNothing :
    { State.reset with host := [.loadProgram (List.replicate 3585 1)] }.host = .loadProgram (List.replicate 3585 1) :: [] ∧
    State.reset.started = false ∧ 3584 < (List.replicate 3585 (1 : Byte)).length :=
  ⟨rfl, rfl, by rw [List.length_replicate]; decide⟩
theorem witness_CallPushesTheReturnAddress :
    State.reset.sp.toNat < 16 ∧ { State.reset with sp := 15 }.sp.toNat < 16 := by decide
theorem witness_CallWithAFullStackRaises : 16 ≤ { State.reset with sp := 16 }.sp.toNat := by decide
theorem witness_RetPopsTheReturnAddress :
    (0 < { State.reset with sp := 1 }.sp.toNat ∧ { State.reset with sp := 1 }.sp.toNat ≤ 16) ∧
    (0 < { State.reset with sp := 16 }.sp.toNat ∧ { State.reset with sp := 16 }.sp.toNat ≤ 16) := by decide
theorem witness_RetWithAnEmptyStackRaises : State.reset.sp = 0 := by decide
theorem witness_ReturnUndoesCall :
    State.reset.sp.toNat < 16 ∧ KeepsStack State.reset { State.reset with pc := 0x300, i := 5 } :=
  ⟨by decide, rfl, fun _ => rfl⟩
theorem witness_JumpToItselfIsIdle :
    BeginsStep (atReset 0x1200) (.free 0) { (atReset 0x1200) with input := .free 0, drawn := 1, started := true } ∧
    (atReset 0x1200).fault = none ∧ (atReset 0x1200).pc = (0x200 : Addr).setWidth 16 ∧
    decode (atReset 0x1200).fetchBytes = .ok (.jp 0x200, []) :=
  ⟨.inl ⟨rfl, rfl, rfl⟩, rfl, by decide, by decide⟩
theorem witness_StmThenLdmRoundTrips :
    Memory.wf State.reset.params.font State.reset.mem ∧ KeepsMem State.reset (State.reset.setReg 0 9) ∧
    (State.reset.setReg 0 9).i = State.reset.i := ⟨reset_wf, fun _ => rfl, rfl⟩
theorem witness_DrawingTwiceRestoresTheScreen : (0 : Reg) ≠ 15 ∧ (1 : Reg) ≠ 15 := by decide
theorem witness_KeySkipsWithAKeypad : State.reset.params.keypadPresent = true := by decide
theorem witness_KeySkipsWithoutAKeypadAreNoOps :
    (State.resetWith ⟨Config.defaultFont, false⟩).params.keypadPresent = false := by decide
theorem witness_OnlyCallAndRetRaise :
    { State.reset with sp := 16 }.sp.toNat ≤ 16 ∧ Raises (.call 0x300) { State.reset with sp := 16 } = some .stackOverflow ∧
    Raises .ret State.reset = some .stackUnderflow ∧ Raises .cls State.reset = none := by decide
/-- For the statements whose hypothesis is that `exec` answers a next state. -/
theorem witness_OnlyClsAndDrwReportTheScreenDirty :
    (∃ t, exec .cls State.reset = .next t) ∧ (∃ t, exec (.ldi 1 2) State.reset = .next t) := ⟨⟨_, rfl⟩, ⟨_, rfl⟩⟩
theorem witness_PcAfterEachStep :
    (∃ t, step (atReset 0x1ABC) = .next t) ∧ decode (atReset 0x1ABC).fetchBytes = .ok (.jp 0xABC, []) ∧
    (∃ t, step (atReset 0x5120) = .next t) ∧ decode (atReset 0x5120).fetchBytes = .error (.unrecognized .family5) :=
  ⟨⟨_, rfl⟩, by decide, ⟨_, rfl⟩, by decide⟩
theorem witness_RegistersChangeOnlyAsTheTableSays :
    (∃ t, exec (.ldi 1 2) State.reset = .next t) ∧ ¬ WritesReg (.ldi 1 2) 2 := ⟨⟨_, rfl⟩, by simp [WritesReg]⟩
theorem witness_OnlyCallAndRetMoveTheStack :
    (∃ t, exec (.jp 0x300) State.reset = .next t) ∧ (∀ nnn, Instr.jp 0x300 ≠ .call nnn) ∧ Instr.jp 0x300 ≠ .ret :=
  ⟨⟨_, rfl⟩, by simp, by simp⟩
theorem witness_ScreenIndexAndMemoryHaveTheirWriters :
    (∃ t, exec (.ldi 1 2) State.reset = .next t) ∧ isDisplay (.ldi 1 2) = false ∧ (∀ nnn, Instr.ldi 1 2 ≠ .ldidx nnn) ∧
    (∀ x, Instr.ldi 1 2 ≠ .addidx x) ∧ (∀ x, Instr.ldi 1 2 ≠ .bcd x) ∧ (∀ x, Instr.ldi 1 2 ≠ .stm x) :=
  ⟨⟨_, rfl⟩, rfl, by simp, by simp, by simp, by simp⟩
theorem witness_TimersHaveTheirWriters :
    (∃ t, exec (.gdt 1) State.reset = .next t) ∧ (∀ x, Instr.gdt 1 ≠ .sdt x) ∧ (∀ x, Instr.gdt 1 ≠ .sst x) :=
  ⟨⟨_, rfl⟩, by simp, by simp⟩
theorem witness_InputsReachOnlyTheirReaders :
    (∃ t, exec (.add 1 2) { State.reset with input := .given 1 2 } = .next t) ∧ (∀ x nn, Instr.add 1 2 ≠ .rnd x nn) ∧
    (∀ x, Instr.add 1 2 ≠ .skp x) ∧ (∀ x, Instr.add 1 2 ≠ .sknp x) := ⟨⟨_, rfl⟩, by simp, by simp, by simp⟩
theorem witness_KeysReachNothingWithoutAKeypad :
    (State.resetWith ⟨Config.defaultFont, false⟩).params.keypadPresent = false ∧
    ∃ t, exec (.skp 3) { State.resetWith ⟨Config.defaultFont, false⟩ with input := .given 1 2 } = .next t := ⟨rfl, ⟨_, rfl⟩⟩
theorem witness_StepKeepsTheInvariant : State.reset.Inv ∧ ∃ t, step State.reset = .next t := ⟨reset_inv, ⟨_, rfl⟩⟩
theorem witness_OnlyAHaltedStepOrALateLoadStops :
    State.reset.Inv ∧ { State.reset with started := true, host := [.loadProgram []] }.host = .loadProgram [] :: [] ∧
    { State.reset with started := true, host := [.loadProgram []] }.started = true := ⟨reset_inv, rfl, rfl⟩
theorem witness_TimerRegistersAreReadAndWritten :
    (∃ t, exec (.gdt 1) State.reset = .next t) ∧ ∀ z, Instr.gdt 1 ≠ .sst z := ⟨⟨_, rfl⟩, by simp⟩
theorem witness_OnlyResetClearsTheLatch :
    { State.reset with fault := some .stackOverflow, host := [.tick] }.fault = some .stackOverflow ∧
    ∃ t, step { State.reset with fault := some .stackOverflow, host := [.tick] } = .next t := ⟨rfl, ⟨_, rfl⟩⟩

end Sys2Proof.Machine
end

section
/-! The state right after reset (10_state.md R33). -/

namespace Sys2Proof.Machine

/-- In 0x050 to 0x09F an unlisted address reads as the font (20_memory.md R40). -/
theorem Memory.background_of_font (font : Font) {a : Nat} (h : 0x50 ≤ a ∧ a < 0xA0) :
    Memory.background font a = font[a - 0x50]'(by omega) := dif_pos h

/-- Outside 0x050 to 0x09F an unlisted address reads as zero (20_memory.md R40). -/
theorem Memory.background_of_not_font (font : Font) {a : Nat} (h : a < 0x50 ∨ 0xA0 ≤ a) :
    Memory.background font a = 0 := dif_neg (by omega)

theorem State.resetWith_readByte (p : Params) (a : Addr) :
    (State.resetWith p).readByte a = Memory.background p.font a.toNat := rfl

@[simp] theorem State.resetWith_reg (p : Params) (r : Reg) : (State.resetWith p).reg r = 0 :=
  Vector.getElem_replicate _

theorem State.resetWith_stack (p : Params) (k : Fin 16) : (State.resetWith p).stack[k] = 0 :=
  Vector.getElem_replicate _

@[simp] theorem State.resetWith_pixel (p : Params) (k : Pixel) : (State.resetWith p).pixel k = false :=
  pixelOf_blankScreen k

/-- The reset state meets R33 for every font, with or without a keypad. -/
theorem State.resetWith_afterReset (p : Params) : AfterReset p (State.resetWith p) where
  font a h := (resetWith_readByte p a).trans (Memory.background_of_font p.font h)
  zero a h := (resetWith_readByte p a).trans (Memory.background_of_not_font p.font h)
  regs := resetWith_reg p
  i := rfl
  pc := rfl
  sp := rfl
  stack := resetWith_stack p
  dt := rfl
  st := rfl
  screen := resetWith_pixel p
  fault := rfl

/-- Settles O16: each item of R33 for any parameters; `State.reset` is the reset state of the default ones. -/
theorem resetStateIsTheSpecs : Obligations.ResetStateIsTheSpecs :=
  ⟨State.resetWith_afterReset, Config.defaultParams, rfl⟩

end Sys2Proof.Machine
end

section
/-! The conditional skips of SE and SNE (40_control_flow.md R83, R84). -/

namespace Sys2Proof

/-- A word of the format `XNN` as the number its fields spell (30_encoding.md R61). -/
theorem formatXNN_eq_ofNat (op : BitVec 4) (x : Reg) (nn : Byte) :
    formatXNN op x nn = BitVec.ofNat 16 (4096 * op.toNat + 256 * x.val + nn.toNat) := by
  rw [← toNat_formatXNN, BitVec.ofNat_toNat, BitVec.setWidth_eq]

theorem decodeWord_formatXNN_3 (x : Reg) (nn : Byte) : decodeWord (formatXNN 0x3#4 x nn) = .ok (.se x nn) := by
  rw [decodeWord_opcode3 (opcodeOf_formatXNN _ x nn), xOf_formatXNN, nnOf_formatXNN]

theorem decodeWord_formatXNN_4 (x : Reg) (nn : Byte) : decodeWord (formatXNN 0x4#4 x nn) = .ok (.sne x nn) := by
  rw [decodeWord_opcode4 (opcodeOf_formatXNN _ x nn), xOf_formatXNN, nnOf_formatXNN]

namespace Machine

/-- A write of `pc` and the reported `Effect` leave everything else. -/
theorem State.report_setPc_keepsAllButPc (s : State) (a : Word) (e : Effect) :
    KeepsAllButPc s ((s.setPc a).report e) :=
  ⟨fun _ => rfl, fun _ => rfl, rfl, ⟨rfl, fun _ => rfl⟩, ⟨rfl, rfl⟩, fun _ => rfl, rfl, rfl, rfl, rfl, rfl, rfl, rfl⟩

/-- An instruction that skips on the condition `p` and is done writes `pc` and reports (0, None) (30_encoding.md R63,
R68). -/
theorem complete_skip_if (p : Prop) [Decidable p] (s : State) :
    complete (if p then s.skip else s) =
      .next ((s.setPc (if p then s.pc + 2 else s.pc)).report Effect.quiet) := by
  split <;> rfl

/-- The `pc` of a conditional skip as a number: 16 bits, so the advance wraps modulo 65536. -/
theorem toNat_skip_if (p : Prop) [Decidable p] (pc : Word) :
    (if p then pc + 2 else pc).toNat = if p then (pc.toNat + 2) % 65536 else pc.toNat := by
  split
  · exact BitVec.toNat_add pc 2
  · rfl

/-- What every instruction that ends in a conditional skip does to `pc`, and its frame. -/
theorem complete_skip_if_spec (p : Prop) [Decidable p] (s : State) :
    ∃ t, complete (if p then s.skip else s) = .next t ∧
      t.pc.toNat = (if p then (s.pc.toNat + 2) % 65536 else s.pc.toNat) ∧ KeepsAllButPc s t :=
  ⟨_, complete_skip_if p s, toNat_skip_if p s.pc, s.report_setPc_keepsAllButPc _ _⟩

theorem exec_se (x : Reg) (nn : Byte) (s : State) :
    exec (.se x nn) s = complete (if s.reg x = nn then s.skip else s) := rfl

theorem exec_sne (x : Reg) (nn : Byte) (s : State) :
    exec (.sne x nn) s = complete (if s.reg x ≠ nn then s.skip else s) := rfl

/-- Settles O25: both words spell their format, and both instructions are conditional skips, SNE on the negated
comparison. -/
theorem seAndSneSkipOnTheComparison : Obligations.SeAndSneSkipOnTheComparison := by
  unfold Obligations.SeAndSneSkipOnTheComparison
  intro x nn s
  refine ⟨?se_word, ?sne_word, ?se_skips, ?sne_skips⟩
  case se_word => exact formatXNN_eq_ofNat 0x3#4 x nn ▸ decodeWord_formatXNN_3 x nn
  case sne_word => exact formatXNN_eq_ofNat 0x4#4 x nn ▸ decodeWord_formatXNN_4 x nn
  case se_skips => exact exec_se x nn s ▸ complete_skip_if_spec (s.reg x = nn) s
  case sne_skips =>
    have h := complete_skip_if_spec (s.reg x ≠ nn) s
    rwa [← exec_sne, ite_not] at h

end Machine
end Sys2Proof
end

section
/-! The plain loads of a register, LDI and MOV (41_load_and_alu.md R90, R92). -/

namespace Sys2Proof

/-- A word of the format `XYN` as the number its fields spell (30_encoding.md R61). -/
theorem formatXYN_eq_ofNat (op : BitVec 4) (x y : Reg) (n : BitVec 4) :
    formatXYN op x y n = BitVec.ofNat 16 (4096 * op.toNat + 256 * x.val + 16 * y.val + n.toNat) := by
  rw [← toNat_formatXYN, BitVec.ofNat_toNat, BitVec.setWidth_eq]

theorem decodeWord_formatXNN_6 (x : Reg) (nn : Byte) : decodeWord (formatXNN 0x6#4 x nn) = .ok (.ldi x nn) := by
  rw [decodeWord_opcode6 (opcodeOf_formatXNN _ x nn), xOf_formatXNN, nnOf_formatXNN]

/-- In family 8 the last nibble 0 selects MOV (30_encoding.md R65). -/
theorem decodeFamily8_of_nOf_0 {w : Word} (h : nOf w = 0x0#4) : decodeFamily8 w = .ok (.mov (xOf w) (yOf w)) :=
  if_pos h

theorem decodeWord_formatXYN_8_0 (x y : Reg) : decodeWord (formatXYN 0x8#4 x y 0x0#4) = .ok (.mov x y) := by
  rw [decodeWord_opcode8 (opcodeOf_formatXYN _ x y _), decodeFamily8_of_nOf_0 (nOf_formatXYN _ x y _),
    xOf_formatXYN, yOf_formatXYN]

namespace Machine

/-- A write of one register and the reported `Effect` leave everything but the registers and `pc`. -/
theorem State.report_setReg_keepsAllButRegs (s : State) (x : Reg) (b : Byte) (e : Effect) :
    KeepsAllButRegs s ((s.setReg x b).report e) :=
  ⟨fun _ => rfl, rfl, ⟨rfl, fun _ => rfl⟩, ⟨rfl, rfl⟩, fun _ => rfl, rfl, rfl, rfl, rfl, rfl, rfl, rfl⟩

/-- What every instruction that writes one register and is done does to the registers, and its frame. -/
theorem complete_setReg_spec (x : Reg) (b : Byte) (s : State) :
    ∃ t, complete (s.setReg x b) = .next t ∧ (∀ r, t.reg r = if r = x then b else s.reg r) ∧ t.pc = s.pc ∧
      KeepsAllButRegs s t :=
  ⟨_, rfl, s.setReg_reg x b, rfl, s.report_setReg_keepsAllButRegs x b _⟩

theorem exec_ldi (x : Reg) (nn : Byte) (s : State) : exec (.ldi x nn) s = complete (s.setReg x nn) := rfl

theorem exec_mov (x y : Reg) (s : State) : exec (.mov x y) s = complete (s.setReg x (s.reg y)) := rfl

/-- Settles O28: the word spells its format, and LDI is a write of the immediate to `V[x]`. -/
theorem ldiLoadsTheImmediate : Obligations.LdiLoadsTheImmediate := by
  unfold Obligations.LdiLoadsTheImmediate
  intro x nn s
  refine ⟨?word, ?loads⟩
  case word => exact formatXNN_eq_ofNat 0x6#4 x nn ▸ decodeWord_formatXNN_6 x nn
  case loads => exact exec_ldi x nn s ▸ complete_setReg_spec x nn s

/-- Settles O30: the word spells its format with `n` zero, and MOV is a write of the old `V[y]` to `V[x]`. -/
theorem movCopiesTheRegister : Obligations.MovCopiesTheRegister := by
  unfold Obligations.MovCopiesTheRegister
  intro x y s
  refine ⟨?word, ?copies⟩
  case word => exact formatXYN_eq_ofNat 0x8#4 x y 0x0#4 ▸ decodeWord_formatXYN_8_0 x y
  case copies => exact exec_mov x y s ▸ complete_setReg_spec x (s.reg y) s

end Machine
end Sys2Proof
end

section
/-! The load of the index register, LDIDX (42_index_and_memory.md R110). -/

namespace Sys2Proof

/-- A word of the format `NNN` as the number its fields spell (30_encoding.md R61). -/
theorem formatNNN_eq_ofNat (op : BitVec 4) (nnn : Addr) :
    formatNNN op nnn = BitVec.ofNat 16 (4096 * op.toNat + nnn.toNat) := by
  rw [← toNat_formatNNN, BitVec.ofNat_toNat, BitVec.setWidth_eq]

theorem decodeWord_formatNNN_A (nnn : Addr) : decodeWord (formatNNN 0xA#4 nnn) = .ok (.ldidx nnn) := by
  rw [decodeWord_opcodeA (opcodeOf_formatNNN _ nnn), nnnOf_formatNNN]

namespace Machine

/-- Zero-extension keeps the number, so the high four bits are clear. -/
theorem toNat_zextAddr (nnn : Addr) : (zextAddr nnn).toNat = nnn.toNat :=
  BitVec.toNat_setWidth_of_le (by decide)

/-- What every instruction that writes `I` and is done leaves in `I`, and its frame. -/
theorem complete_setI_spec (a : Word) (s : State) :
    ∃ t, complete (s.setI a) = .next t ∧ t.i = a ∧ t.pc = s.pc ∧ KeepsRegs s t ∧ KeepsMem s t ∧
      KeepsStack s t ∧ KeepsTimers s t ∧ KeepsScreen s t ∧ t.fault = s.fault ∧ KeepsHostSide s t :=
  ⟨_, rfl, rfl, rfl, fun _ => rfl, fun _ => rfl, ⟨rfl, fun _ => rfl⟩, ⟨rfl, rfl⟩, fun _ => rfl, rfl,
    rfl, rfl, rfl, rfl, rfl, rfl⟩

theorem exec_ldidx (nnn : Addr) (s : State) : exec (.ldidx nnn) s = complete (s.setI (zextAddr nnn)) := rfl

/-- Settles O36: the word spells its format, and LDIDX is a write of the zero-extended `nnn` to `I`. -/
theorem ldidxLoadsTheIndex : Obligations.LdidxLoadsTheIndex := by
  unfold Obligations.LdidxLoadsTheIndex
  intro nnn s
  refine ⟨?word, ?loads⟩
  case word => exact formatNNN_eq_ofNat 0xA#4 nnn ▸ decodeWord_formatNNN_A nnn
  case loads =>
    obtain ⟨t, hexec, hi, frame⟩ := complete_setI_spec (zextAddr nnn) s
    exact ⟨t, (exec_ldidx nnn s).trans hexec, (congrArg BitVec.toNat hi).trans (toNat_zextAddr nnn), frame⟩

end Machine
end Sys2Proof
end

section
/-! The timer instructions, GDT, SDT and SST (44_keypad_and_timers.md R132 to R134). -/

namespace Sys2Proof

/-- A word of family F as the row's number with `x` in its field (30_encoding.md R66). -/
theorem formatXNN_F_eq_ofNat (x : Reg) (nn : Byte) :
    formatXNN 0xF#4 x nn = BitVec.ofNat 16 (0xF000 + nn.toNat + 256 * x.val) := by
  rw [formatXNN_eq_ofNat, Nat.add_right_comm]; rfl

/-- In family F the byte `nn` selects the row (30_encoding.md R65). -/
theorem decodeWord_formatXNN_F (x : Reg) (nn : Byte) :
    decodeWord (formatXNN 0xF#4 x nn) = decodeFamilyF (formatXNN 0xF#4 x nn) :=
  decodeWord_opcodeF (opcodeOf_formatXNN _ x nn)

theorem decodeWord_formatXNN_F_07 (x : Reg) : decodeWord (formatXNN 0xF#4 x 0x07#8) = .ok (.gdt x) := by
  rw [decodeWord_formatXNN_F]; simp [decodeFamilyF]

theorem decodeWord_formatXNN_F_15 (x : Reg) : decodeWord (formatXNN 0xF#4 x 0x15#8) = .ok (.sdt x) := by
  rw [decodeWord_formatXNN_F]; simp [decodeFamilyF]

theorem decodeWord_formatXNN_F_18 (x : Reg) : decodeWord (formatXNN 0xF#4 x 0x18#8) = .ok (.sst x) := by
  rw [decodeWord_formatXNN_F]; simp [decodeFamilyF]

namespace Machine

theorem exec_gdt (x : Reg) (s : State) : exec (.gdt x) s = complete (s.setReg x s.dt) := rfl

theorem exec_sdt (x : Reg) (s : State) : exec (.sdt x) s = complete (s.setDt (s.reg x)) := rfl

theorem exec_sst (x : Reg) (s : State) : exec (.sst x) s = complete (s.setSt (s.reg x)) := rfl

/-- What every instruction that writes `DT` and is done leaves in `DT`, and its frame. -/
theorem complete_setDt_spec (b : Byte) (s : State) :
    ∃ t, complete (s.setDt b) = .next t ∧ t.dt = b ∧ t.st = s.st ∧ t.pc = s.pc ∧ KeepsRegs s t ∧ KeepsMem s t ∧
      t.i = s.i ∧ KeepsStack s t ∧ KeepsScreen s t ∧ t.fault = s.fault ∧ KeepsHostSide s t :=
  ⟨_, rfl, rfl, rfl, rfl, fun _ => rfl, fun _ => rfl, rfl, ⟨rfl, fun _ => rfl⟩, fun _ => rfl, rfl,
    rfl, rfl, rfl, rfl, rfl, rfl⟩

/-- What every instruction that writes `ST` and is done leaves in `ST`, and its frame. -/
theorem complete_setSt_spec (b : Byte) (s : State) :
    ∃ t, complete (s.setSt b) = .next t ∧ t.st = b ∧ t.dt = s.dt ∧ t.pc = s.pc ∧ KeepsRegs s t ∧ KeepsMem s t ∧
      t.i = s.i ∧ KeepsStack s t ∧ KeepsScreen s t ∧ t.fault = s.fault ∧ KeepsHostSide s t :=
  ⟨_, rfl, rfl, rfl, rfl, fun _ => rfl, fun _ => rfl, rfl, ⟨rfl, fun _ => rfl⟩, fun _ => rfl, rfl,
    rfl, rfl, rfl, rfl, rfl, rfl⟩

end Machine
end Sys2Proof
end

section
/-! No instruction reads `ST`: two runs that differ in `ST` only still differ there only, under every instruction but
the one that overwrites it (44_keypad_and_timers.md R134). -/

namespace Sys2Proof.Machine

/-! ### The control transfers by their conditions -/

theorem exec_ret_of_empty {s : State} (h : s.sp = 0) : exec .ret s = raise .stackUnderflow s := if_pos h

theorem exec_ret_of_top {s : State} {a : Word} (h : s.sp ≠ 0) (ha : s.topReturn = some a) :
    exec .ret s = complete (s.dropReturn.setPc a) := by
  simp only [exec, execRet, if_neg h, ha]

theorem exec_call_of_full (nnn : Addr) {s : State} (h : 16 ≤ s.sp.toNat) :
    exec (.call nnn) s = raise .stackOverflow s := if_pos h

theorem exec_call_of_room (nnn : Addr) {s : State} (h : s.sp.toNat < 16) :
    exec (.call nnn) s = complete ((s.pushReturn s.pc).setPc (zextAddr nnn)) := if_neg (Nat.not_le.mpr h)

/-! ### The shared updates pass `ST` through -/

theorem State.skip_if_setSt (p : Prop) [Decidable p] (s : State) (b : Byte) :
    (if p then (s.setSt b).skip else s.setSt b) = (if p then s.skip else s).setSt b :=
  (apply_ite (State.setSt · b) p s.skip s).symm

theorem State.storeRegs_setSt (ks : List Reg) (s : State) (b : Byte) :
    (s.setSt b).storeRegs ks = (s.storeRegs ks).setSt b := by
  induction ks generalizing s with
  | nil => rfl
  | cons k rest ih => exact ih (s.writeIndexed k (s.reg k))

theorem State.loadRegs_setSt (ks : List Reg) (s : State) (b : Byte) :
    (s.setSt b).loadRegs ks = (s.loadRegs ks).setSt b := by
  induction ks generalizing s with
  | nil => rfl
  | cons k rest ih => exact ih (s.setReg k (s.readIndexed k))

/-! ### The instructions pass `ST` through -/

/-- `f` neither reads `ST` nor writes it: from any other `ST` it answers the same next state with that `ST`. -/
def PassesStThrough (f : State → Host.Outcome State Fault Refusal) : Prop :=
  ∀ (b : Byte) (s t : State), f s = .next t → f (s.setSt b) = .next (t.setSt b)

/-- An update that passes `ST` through still does when it ends an instruction that reports (0, None). -/
theorem passesStThrough_complete {g : State → State} (hg : ∀ s b, g (s.setSt b) = (g s).setSt b) :
    PassesStThrough fun s => complete (g s) := by
  intro b s t h
  obtain rfl := (complete_eq_next _ _).mp h
  exact congrArg complete (hg s b)

/-- The same for an instruction that reports (1, None). -/
theorem passesStThrough_completeDirty {g : State → State} (hg : ∀ s b, g (s.setSt b) = (g s).setSt b) :
    PassesStThrough fun s => completeDirty (g s) := by
  intro b s t h
  obtain rfl := (completeDirty_eq_next _ _).mp h
  exact congrArg completeDirty (hg s b)

theorem passesStThrough_ret : PassesStThrough (exec .ret) := by
  intro b s t h
  obtain ⟨hempty, rfl⟩ | ⟨hsp, a, htop, rfl⟩ := exec_ret_cases h
  · exact exec_ret_of_empty (s := s.setSt b) hempty
  · exact exec_ret_of_top (s := s.setSt b) hsp htop

theorem passesStThrough_call (nnn : Addr) : PassesStThrough (exec (.call nnn)) := by
  intro b s t h
  obtain ⟨hfull, rfl⟩ | ⟨hroom, rfl⟩ := exec_call_cases h
  · exact exec_call_of_full nnn (s := s.setSt b) hfull
  · exact exec_call_of_room nnn (s := s.setSt b) hroom

/-- Every instruction but SST: the control transfers and the runs of registers by their own lemmas, the others because
they compute an update from fields other than `ST`. -/
theorem exec_passesStThrough (i : Instr) (hi : ∀ z, i ≠ .sst z) : PassesStThrough (exec i) := by
  cases i
  case sst z => exact absurd rfl (hi z)
  case ret => exact passesStThrough_ret
  case call nnn => exact passesStThrough_call nnn
  case se | sne | skp | sknp => exact passesStThrough_complete fun s b => State.skip_if_setSt _ s b
  case stm x => exact passesStThrough_complete fun s b => s.storeRegs_setSt (regsUpTo x) b
  case ldm x => exact passesStThrough_complete fun s b => s.loadRegs_setSt (regsUpTo x) b
  case cls | drw => exact passesStThrough_completeDirty fun _ _ => rfl
  case jp | jpv0 | ldi | addi | mov | or | and | xor | add | sub | shr | subn | shl | rnd | ldidx | addidx | bcd | gdt
      | sdt =>
    exact passesStThrough_complete fun _ _ => rfl

/-- SST overwrites `ST` unread. -/
theorem exec_sst_setSt (x : Reg) (s : State) (b : Byte) : exec (.sst x) (s.setSt b) = exec (.sst x) s := rfl

/-- Settles O47: the words spell their format; each instruction is a write of one register or timer; and every
instruction but SST passes `ST` through, while SST overwrites it. -/
theorem timerRegistersAreReadAndWritten : Obligations.TimerRegistersAreReadAndWritten := by
  unfold Obligations.TimerRegistersAreReadAndWritten
  intro x s
  refine ⟨?gdt_word, ?sdt_word, ?sst_word, ?gdt_reads, ?sdt_writes, ?sst_writes, ?others, exec_sst_setSt x s⟩
  case gdt_word => exact formatXNN_F_eq_ofNat x 0x07#8 ▸ decodeWord_formatXNN_F_07 x
  case sdt_word => exact formatXNN_F_eq_ofNat x 0x15#8 ▸ decodeWord_formatXNN_F_15 x
  case sst_word => exact formatXNN_F_eq_ofNat x 0x18#8 ▸ decodeWord_formatXNN_F_18 x
  case gdt_reads => exact exec_gdt x s ▸ complete_setReg_spec x s.dt s
  case sdt_writes => exact exec_sdt x s ▸ complete_setDt_spec (s.reg x) s
  case sst_writes => exact exec_sst x s ▸ complete_setSt_spec (s.reg x) s
  case others => exact fun i b t hexec hi => exec_passesStThrough i hi b s t hexec

end Sys2Proof.Machine
end

section
/-! The decoder and the encoder are inverse to each other (30_encoding.md sections 1 and 3). -/

namespace Sys2Proof

/-! ### Decoding an encoded instruction -/

/-- The selectors of an instruction's word lead back to its own row, and its fields to its operands. -/
theorem decodeWord_encode (i : Instr) : decodeWord (encode i) = .ok i := by
  cases i
  case cls | ret => decide
  case jp | call | ldidx | jpv0 => simp [encode, decodeWord]
  case se | sne | ldi | addi | rnd => simp [encode, decodeWord]
  case mov | or | and | xor | add | sub | shr | subn | shl => simp [encode, decodeWord, decodeFamily8]
  case drw => simp [encode, decodeWord]
  case skp | sknp => simp [encode, decodeWord, decodeFamilyE]
  case gdt | sdt | sst | addidx | bcd | stm | ldm => simp [encode, decodeWord, decodeFamilyF]

/-- `decode` reads the word of the first two bytes and leaves the others. -/
theorem decode_of_decodeWord {hi lo : Byte} {rest : List Byte} {i : Instr}
    (h : decodeWord (wordOfBytes hi lo) = .ok i) : decode (hi :: lo :: rest) = .ok (i, rest) := by
  simp only [decode, h]

theorem decode_encodeBytes (i : Instr) (rest : List Byte) : decode (encodeBytes i ++ rest) = .ok (i, rest) :=
  decode_of_decodeWord (by rw [wordOfBytes_highByte_lowByte, decodeWord_encode])

/-! ### Well-formedness -/

theorem fieldFits_toNat {width : Nat} (b : BitVec width) : fieldFits width b.toNat = true :=
  decide_eq_true b.isLt

theorem fieldFits_reg (x : Reg) : fieldFits 4 x.val = true := decide_eq_true x.isLt

/-- The operand types hold only values that fit their fields. -/
theorem Instr.wellFormed_eq_true (i : Instr) : i.wellFormed = true := by
  cases i <;> simp [Instr.wellFormed, Instr.operands, fieldFits_toNat, fieldFits_reg]

/-- Settles O1: the operand types make every instruction well formed, and its two bytes are its word, which decodes to
it. -/
theorem decodeOfEncodeIsTheInstruction : Obligations.DecodeOfEncodeIsTheInstruction :=
  fun i rest => ⟨i.wellFormed_eq_true, decode_encodeBytes i rest⟩

/-! ### Encoding a decoded instruction -/

section
variable {w : Word} {i : Instr}

/-- The words of family 0 that decode are the two of the table. -/
theorem encode_of_decodeFamily0 (hop : opcodeOf w = 0x0#4) (h : decodeFamily0 w = .ok i) : encode i = w := by
  have hw : formatNNN 0x0#4 (nnnOf w) = w := hop ▸ formatNNN_fields w
  simp only [decodeFamily0] at h
  split_ifs at h <;> cases h <;> rw [← hw, ‹nnnOf w = _›] <;> rfl

/-- In family 8 the selector `n` stands in the row's word as it was. -/
theorem encode_of_decodeFamily8 (hop : opcodeOf w = 0x8#4) (h : decodeFamily8 w = .ok i) : encode i = w := by
  have hw : formatXYN 0x8#4 (xOf w) (yOf w) (nOf w) = w := hop ▸ formatXYN_fields w
  simp only [decodeFamily8] at h
  split_ifs at h <;> cases h <;> rwa [‹nOf w = _›] at hw

/-- In family E the selector `nn` stands in the row's word as it was. -/
theorem encode_of_decodeFamilyE (hop : opcodeOf w = 0xE#4) (h : decodeFamilyE w = .ok i) : encode i = w := by
  have hw : formatXNN 0xE#4 (xOf w) (nnOf w) = w := hop ▸ formatXNN_fields w
  simp only [decodeFamilyE] at h
  split_ifs at h <;> cases h <;> rwa [‹nnOf w = _›] at hw

/-- In family F the selector `nn` stands in the row's word as it was. -/
theorem encode_of_decodeFamilyF (hop : opcodeOf w = 0xF#4) (h : decodeFamilyF w = .ok i) : encode i = w := by
  have hw : formatXNN 0xF#4 (xOf w) (nnOf w) = w := hop ▸ formatXNN_fields w
  simp only [decodeFamilyF] at h
  split_ifs at h <;> cases h <;> rwa [‹nnOf w = _›] at hw

/-- An opcode with one row of the format `NNN`: the row's word is the word decoded. -/
theorem encode_of_rowNNN {op : BitVec 4} {row : Addr → Instr} (hrow : ∀ nnn, encode (row nnn) = formatNNN op nnn)
    (hop : opcodeOf w = op) (h : Except.ok (ε := Unrecognized) (row (nnnOf w)) = .ok i) : encode i = w := by
  cases h
  rw [hrow, ← hop, formatNNN_fields]

/-- An opcode with one row of the format `XNN`: the row's word is the word decoded. -/
theorem encode_of_rowXNN {op : BitVec 4} {row : Reg → Byte → Instr}
    (hrow : ∀ x nn, encode (row x nn) = formatXNN op x nn) (hop : opcodeOf w = op)
    (h : Except.ok (ε := Unrecognized) (row (xOf w) (nnOf w)) = .ok i) : encode i = w := by
  cases h
  rw [hrow, ← hop, formatXNN_fields]

/-- The opcode D has one row of the format `XYN`. -/
theorem encode_of_rowXYN {op : BitVec 4} {row : Reg → Reg → BitVec 4 → Instr}
    (hrow : ∀ x y n, encode (row x y n) = formatXYN op x y n) (hop : opcodeOf w = op)
    (h : Except.ok (ε := Unrecognized) (row (xOf w) (yOf w) (nOf w)) = .ok i) : encode i = w := by
  cases h
  rw [hrow, ← hop, formatXYN_fields]

end

/-- Settles O2: the decoder dispatches on the opcode, and under each opcode the fields it reads spell the word. -/
theorem encodeOfDecodeIsTheWord : Obligations.EncodeOfDecodeIsTheWord := by
  intro w i h
  rcases opcode_cases (opcodeOf w) with
    o | o | o | o | o | o | o | o | o | o | o | o | o | o | o | o
  · exact encode_of_decodeFamily0 o (decodeWord_opcode0 o ▸ h)
  · exact encode_of_rowNNN (fun _ => rfl) o (decodeWord_opcode1 o ▸ h)
  · exact encode_of_rowNNN (fun _ => rfl) o (decodeWord_opcode2 o ▸ h)
  · exact encode_of_rowXNN (fun _ _ => rfl) o (decodeWord_opcode3 o ▸ h)
  · exact encode_of_rowXNN (fun _ _ => rfl) o (decodeWord_opcode4 o ▸ h)
  · cases decodeWord_opcode5 o ▸ h
  · exact encode_of_rowXNN (fun _ _ => rfl) o (decodeWord_opcode6 o ▸ h)
  · exact encode_of_rowXNN (fun _ _ => rfl) o (decodeWord_opcode7 o ▸ h)
  · exact encode_of_decodeFamily8 o (decodeWord_opcode8 o ▸ h)
  · cases decodeWord_opcode9 o ▸ h
  · exact encode_of_rowNNN (fun _ => rfl) o (decodeWord_opcodeA o ▸ h)
  · exact encode_of_rowNNN (fun _ => rfl) o (decodeWord_opcodeB o ▸ h)
  · exact encode_of_rowXNN (fun _ _ => rfl) o (decodeWord_opcodeC o ▸ h)
  · exact encode_of_rowXYN (fun _ _ _ => rfl) o (decodeWord_opcodeD o ▸ h)
  · exact encode_of_decodeFamilyE o (decodeWord_opcodeE o ▸ h)
  · exact encode_of_decodeFamilyF o (decodeWord_opcodeF o ▸ h)

end Sys2Proof
end

section
/-! What an instruction that answers a next state may have changed, said once for all instructions. -/

namespace Sys2Proof.Machine

/-- What holds of the state `t` in which the instruction `i` leaves the state `s`. Each field's default proof serves the
instructions that do not write the item. -/
structure ExecFrame (i : Instr) (s t : State) : Prop where
  /-- The table of 10_state.md R16. -/
  pc : t.pc = pcAfter i s := by rfl
  /-- The table of 10_state.md R13. -/
  regs : ∀ r, ¬ WritesReg i r → t.reg r = s.reg r := by exact fun _ _ => rfl
  index : (∀ nnn, i ≠ .ldidx nnn) → (∀ x, i ≠ .addidx x) → t.i = s.i := by exact fun _ _ => rfl
  mem : (∀ x, i ≠ .bcd x) → (∀ x, i ≠ .stm x) → t.mem = s.mem := by exact fun _ _ => rfl
  memWf : Memory.wf s.params.font s.mem → Memory.wf t.params.font t.mem := by exact id
  screen : isDisplay i = false → t.fb = s.fb := by exact fun _ => rfl
  dt : (∀ x, i ≠ .sdt x) → t.dt = s.dt := by exact fun _ => rfl
  st : (∀ x, i ≠ .sst x) → t.st = s.st := by exact fun _ => rfl
  stack : (∀ nnn, i ≠ .call nnn) → i ≠ .ret → t.sp = s.sp ∧ t.stack = s.stack := by exact fun _ _ => ⟨rfl, rfl⟩
  /-- 60_exceptions.md R150: the latch takes what the instruction raises. -/
  fault : t.fault = (Raises i s).or s.fault := by rfl
  fatal : t.effect.fatal = Raises i s := by rfl
  dirty : t.effect.fbDirty = isDisplay i := by rfl
  hostSide : KeepsHostSide s t := by exact ⟨rfl, rfl, rfl, rfl, rfl, rfl⟩

theorem execFrame_ret {s t : State} (h : exec .ret s = .next t) : ExecFrame .ret s t := by
  obtain ⟨hempty, rfl⟩ | ⟨hsp, a, htop, rfl⟩ := exec_ret_cases h
  · have hraise : Raises .ret s = some .stackUnderflow := if_pos hempty
    exact { pc := (if_pos hempty).symm, stack := fun _ hi => absurd rfl hi, fault := by rw [hraise]; rfl,
            fatal := hraise.symm }
  · have hraise : Raises .ret s = none := if_neg hsp
    exact { pc := ((if_neg hsp).trans (congrArg (Option.getD · 0) htop)).symm, stack := fun _ hi => absurd rfl hi,
            fault := by rw [hraise]; rfl, fatal := hraise.symm }

theorem execFrame_call {nnn : Addr} {s t : State} (h : exec (.call nnn) s = .next t) : ExecFrame (.call nnn) s t := by
  obtain ⟨hfull, rfl⟩ | ⟨hroom, rfl⟩ := exec_call_cases h
  · have hraise : Raises (.call nnn) s = some .stackOverflow := if_pos hfull
    exact { pc := (if_pos hfull).symm, stack := fun hi => absurd rfl (hi nnn), fault := by rw [hraise]; rfl,
            fatal := hraise.symm }
  · have hroom := Nat.not_le.mpr hroom
    have hraise : Raises (.call nnn) s = none := if_neg hroom
    exact { pc := (if_neg hroom).symm, stack := fun hi => absurd rfl (hi nnn), fault := by rw [hraise]; rfl,
            fatal := hraise.symm }

/-- Every instruction: the control transfers by the ways they end, each other by the one item it writes. -/
theorem exec_frame {i : Instr} {s t : State} (h : exec i s = .next t) : ExecFrame i s t := by
  cases i
  case ret => exact execFrame_ret h
  case call nnn => exact execFrame_call h
  case cls =>
    obtain rfl := (completeDirty_eq_next _ _).mp h
    exact { screen := nofun }
  case drw x y n =>
    obtain rfl := (completeDirty_eq_next _ _).mp h
    exact { screen := nofun, regs := fun r hr => (State.setReg_reg _ vf _ r).trans (if_neg hr) }
  case jp | jpv0 =>
    obtain rfl := (complete_eq_next _ _).mp h
    exact {}
  case se | sne =>
    cases (complete_skip_if _ s).symm.trans h
    exact {}
  case skp | sknp =>
    cases (complete_skip_if _ s).symm.trans h
    exact { pc := by simp [pcAfter, State.keyPressed, keyNumber] }
  case ldi x _ | addi x _ | mov x _ | or x _ | and x _ | xor x _ | rnd x _ | gdt x =>
    obtain rfl := (complete_eq_next _ _).mp h
    exact { regs := fun r hr => (State.setReg_reg _ x _ r).trans (if_neg hr) }
  case add x _ | sub x _ | subn x _ | shr x _ | shl x _ =>
    obtain rfl := (complete_eq_next _ _).mp h
    exact { regs := fun r hr => by
              obtain ⟨hx, hf⟩ := not_or.mp hr
              rw [State.report_reg, State.setResultAndFlag_reg, if_neg hf, if_neg hx] }
  case ldidx =>
    obtain rfl := (complete_eq_next _ _).mp h
    exact { index := fun hi => absurd rfl (hi _) }
  case addidx =>
    obtain rfl := (complete_eq_next _ _).mp h
    exact { index := fun _ hi => absurd rfl (hi _) }
  case sdt =>
    obtain rfl := (complete_eq_next _ _).mp h
    exact { dt := fun hi => absurd rfl (hi _) }
  case sst =>
    obtain rfl := (complete_eq_next _ _).mp h
    exact { st := fun hi => absurd rfl (hi _) }
  case bcd =>
    obtain rfl := (complete_eq_next _ _).mp h
    exact { mem := fun hi => absurd rfl (hi _)
            memWf := fun hm => State.writeByte_wf _ _ _ (State.writeByte_wf _ _ _ (State.writeByte_wf _ _ _ hm)) }
  case stm x =>
    obtain rfl := (complete_eq_next _ _).mp h
    rw [State.storeRegs_frame]
    exact { mem := fun _ hi => absurd rfl (hi _)
            memWf := fun hm => by
              have := State.storeRegs_wf (regsUpTo x) s hm
              rwa [State.storeRegs_frame] at this }
  case ldm x =>
    obtain rfl := (complete_eq_next _ _).mp h
    rw [State.loadRegs_frame]
    exact { regs := fun r hr => by
              have := State.loadRegs_reg (regsUpTo x) s r
              rw [if_neg (mt (mem_regsUpTo x r).mp hr), State.loadRegs_frame] at this
              exact this }

end Sys2Proof.Machine
end

section
/-! The invariant (10_state.md R18, 60_exceptions.md R150 to R154): every event keeps it, and what stops the machine. -/

namespace Sys2Proof.Machine

/-! ### How a step begins -/

/-- What the beginning of a `Step` leaves: everything but the inputs, the host's queue and the mark of the start. -/
structure BeginFrame (s s' : State) : Prop where
  pc : s'.pc = s.pc
  mem : s'.mem = s.mem
  sp : s'.sp = s.sp
  fault : s'.fault = s.fault
  effect : s'.effect = s.effect
  params : s'.params = s.params
  fetch : s'.fetchBytes = s.fetchBytes
  started : s'.started = true

theorem BeginsStep.frame {s s' : State} {inp : StepInput} (h : BeginsStep s inp s') : BeginFrame s s' := by
  obtain ⟨-, rfl, rfl⟩ | ⟨keys, rnd, rest, -, rfl, rfl⟩ := h <;> exact ⟨rfl, rfl, rfl, rfl, rfl, rfl, rfl, rfl⟩

theorem runStep_of_fault {s : State} {f : StackFault} (h : s.fault = some f) : runStep s = .fault (.halted f) := by
  simp only [runStep, h]

theorem runStep_of_ok {s : State} {i : Instr} {rest : List Byte} (hf : s.fault = none)
    (h : decode s.fetchBytes = .ok (i, rest)) : runStep s = exec i s.advancePc := by
  rw [runStep_of_none hf, h]

theorem runStep_of_error {s : State} {e : DecodeError} (hf : s.fault = none) (h : decode s.fetchBytes = .error e) :
    runStep s = complete s.advancePc := by
  rw [runStep_of_none hf, h]; rfl

/-- The ways a `Step` answers a next state. -/
theorem runStep_cases {s t : State} (h : runStep s = .next t) :
    s.fault = none ∧ ((∃ i rest, decode s.fetchBytes = .ok (i, rest) ∧ exec i s.advancePc = .next t) ∨
      (∃ e, decode s.fetchBytes = .error e ∧ t = s.advancePc.report Effect.quiet)) := by
  cases hf : s.fault with
  | some f => rw [runStep_of_fault hf] at h; cases h
  | none =>
    refine ⟨rfl, ?_⟩
    cases hd : decode s.fetchBytes with
    | ok p => exact .inl ⟨p.1, p.2, rfl, runStep_of_ok hf hd ▸ h⟩
    | error e => exact .inr ⟨e, rfl, (complete_eq_next _ _).mp (runStep_of_error hf hd ▸ h)⟩

/-! ### The other events -/

theorem step_of_tick {s : State} {rest : List HostEvent} (hh : s.host = .tick :: rest) :
    step s = .next (tick { s with host := rest }) := by
  simp only [step, hh]

theorem step_of_reset {s : State} {rest : List HostEvent} (hh : s.host = .reset :: rest) :
    step s = .next (resetEvent { s with host := rest }) := by
  simp only [step, hh]

theorem step_of_load {s : State} {bytes : List Byte} {rest : List HostEvent}
    (hh : s.host = .loadProgram bytes :: rest) : step s = loadEvent bytes { s with host := rest } := by
  simp only [step, hh]

/-- A load after the first `Step` of a run stops. -/
theorem step_of_lateLoad {s : State} {bytes : List Byte} {rest : List HostEvent}
    (hh : s.host = .loadProgram bytes :: rest) (hstarted : s.started = true) :
    step s = .fault .loadAfterFirstStep :=
  (step_of_load hh).trans (loadEvent_of_started bytes hstarted)

/-- A load before the first `Step` of a run goes on. -/
theorem step_of_earlyLoad {s : State} {bytes : List Byte} {rest : List HostEvent}
    (hh : s.host = .loadProgram bytes :: rest) (hstarted : s.started = false) :
    step s = .next (loadProgram bytes { s with host := rest }) :=
  (step_of_load hh).trans ((loadEvent_eq_next _ _ _).mpr ⟨hstarted, rfl⟩)

/-! ### The stack pointer -/

theorem State.toNat_pushReturn_sp (s : State) (a : Word) (h : s.sp.toNat < 16) :
    (s.pushReturn a).sp.toNat = s.sp.toNat + 1 := by
  rw [State.pushReturn_sp]; bv_omega

theorem State.toNat_dropReturn_sp (s : State) (h : s.sp ≠ 0) : s.dropReturn.sp.toNat = s.sp.toNat - 1 := by
  rw [State.dropReturn_sp]; bv_omega

/-- The stack pointer after an instruction, `sp` at most 16 before it: a call pushes below 16 and raises at 16, a return
pops above 0 and raises at 0. -/
theorem exec_sp {i : Instr} {s t : State} (h : exec i s = .next t) (hsp : s.sp.toNat ≤ 16) :
    t.sp.toNat ≤ 16 ∧ (Raises i s = some .stackOverflow → t.sp = 16) ∧
    (Raises i s = some .stackUnderflow → t.sp = 0) := by
  cases i
  case ret =>
    obtain ⟨hempty, rfl⟩ | ⟨hne, a, -, rfl⟩ := exec_ret_cases h
    · exact ⟨hsp, by simp [Raises], fun _ => hempty⟩
    · have hdrop := s.toNat_dropReturn_sp hne
      have hraise : Raises .ret s = none := if_neg hne
      exact ⟨le_of_eq_of_le hdrop (by omega), by simp [hraise], by simp [hraise]⟩
  case call nnn =>
    obtain ⟨hfull, rfl⟩ | ⟨hroom, rfl⟩ := exec_call_cases h
    · exact ⟨hsp, fun _ => BitVec.eq_of_toNat_eq (le_antisymm hsp hfull), by simp [Raises]⟩
    · have hpush := s.toNat_pushReturn_sp s.pc hroom
      have hraise : Raises (.call nnn) s = none := if_neg (by omega)
      exact ⟨le_of_eq_of_le hpush (by omega), by simp [hraise], by simp [hraise]⟩
  all_goals
    have heq := ((exec_frame h).stack (by simp) (by simp)).1
    exact ⟨heq ▸ hsp, by simp [Raises], by simp [Raises]⟩

/-! ### The invariant is kept -/

/-- An instruction run with no fault latched keeps the invariant. -/
theorem exec_inv {i : Instr} {s t : State} (h : exec i s = .next t) (hs : s.Inv) (hnone : s.fault = none)
    (hstarted : s.started = true) : t.Inv := by
  have frame := exec_frame h
  obtain ⟨hle, hover, hunder⟩ := exec_sp h hs.sp_le
  obtain ⟨-, -, -, -, -, hst⟩ := frame.hostSide
  have hfault : t.fault = Raises i s := by rw [frame.fault, hnone, Option.or_none]
  exact {
    memory := frame.memWf hs.memory
    sp_le := hle
    overflow := fun hf => hover (hfault ▸ hf)
    underflow := fun hf => hunder (hfault ▸ hf)
    fatal := frame.fatal.trans hfault.symm
    latched := fun _ => hst.trans hstarted }

/-- A state with no fault latched meets the invariant when its memory, `sp` and held `Effect` do. -/
theorem State.inv_of_fault_none {s : State} (hm : Memory.wf s.params.font s.mem) (hsp : s.sp.toNat ≤ 16)
    (hf : s.fault = none) (he : s.effect.fatal = none) : s.Inv where
  memory := hm
  sp_le := hsp
  overflow h := by simp [hf] at h
  underflow h := by simp [hf] at h
  fatal := he.trans hf.symm
  latched h := absurd hf h

theorem runStep_inv {s t : State} (h : runStep s = .next t) (hm : Memory.wf s.params.font s.mem)
    (hsp : s.sp.toNat ≤ 16) (he : s.effect.fatal = s.fault) (hstarted : s.started = true) :
    t.Inv ∧ t.params = s.params := by
  obtain ⟨hf, ⟨i, rest, -, hexec⟩ | ⟨e, -, rfl⟩⟩ := runStep_cases h
  · have hs : s.advancePc.Inv := State.inv_of_fault_none hm hsp hf (he.trans hf)
    exact ⟨exec_inv hexec hs hf hstarted, (exec_frame hexec).hostSide.1⟩
  · exact ⟨State.inv_of_fault_none hm hsp hf rfl, rfl⟩

theorem loadProgram_frame (bytes : List Byte) (s : State) :
    loadProgram bytes s =
      { s with mem := (loadProgram bytes s).mem, loadResult := (loadProgram bytes s).loadResult } := by
  unfold loadProgram
  split
  · rw [State.writeBytes_frame]; rfl
  · rfl

theorem loadProgram_wf (bytes : List Byte) (s : State) (hm : Memory.wf s.params.font s.mem) :
    Memory.wf s.params.font (loadProgram bytes s).mem := by
  unfold loadProgram
  split
  · have := State.writeBytes_wf bytes 0x0200 s hm
    rwa [State.writeBytes_frame] at this
  · exact hm

theorem State.resetWith_inv (p : Params) : (State.resetWith p).Inv :=
  State.inv_of_fault_none (Memory.wf_reset p) (Nat.zero_le 16) rfl rfl

/-- Settles O58: after reset no fault is latched, no byte is listed and the stack is empty. -/
theorem resetMeetsTheInvariant : Obligations.ResetMeetsTheInvariant := State.resetWith_inv

/-- Settles O57, by the events: a `Step` by its instruction, `Tick` writes the timers only, `Reset` gives a reset state,
and a load writes memory only. -/
theorem stepKeepsTheInvariant : Obligations.StepKeepsTheInvariant := by
  intro s t hs h
  obtain ⟨inp, s', hbegin, hrun⟩ | ⟨rest, -, rfl⟩ | ⟨rest, -, rfl⟩ | ⟨bytes, rest, -, -, rfl⟩ := step_cases h
  · have frame := hbegin.frame
    rw [← frame.params]
    refine runStep_inv hrun ?_ (frame.sp ▸ hs.sp_le) ?_ frame.started
    · rw [frame.params, frame.mem]; exact hs.memory
    · rw [frame.effect, frame.fault]; exact hs.fatal
  · exact ⟨⟨hs.memory, hs.sp_le, hs.overflow, hs.underflow, hs.fatal, hs.latched⟩, rfl⟩
  · have hr := State.resetWith_inv s.params
    exact ⟨⟨hr.memory, hr.sp_le, hr.overflow, hr.underflow, hr.fatal, hr.latched⟩, rfl⟩
  · rw [loadProgram_frame]
    exact ⟨⟨loadProgram_wf bytes _ hs.memory, hs.sp_le, hs.overflow, hs.underflow, hs.fatal, hs.latched⟩, rfl⟩

/-! ### What stops -/

/-- Every instruction completes with `sp` at most 16: the entry a return pops exists. -/
theorem exec_completes (i : Instr) {s : State} (hsp : s.sp.toNat ≤ 16) : Completes (exec i s) := by
  cases i
  case ret =>
    by_cases hempty : s.sp = 0
    · exact ⟨_, exec_ret_of_empty hempty⟩
    · have : s.sp.toNat ≠ 0 := fun h0 => hempty (BitVec.eq_of_toNat_eq h0)
      exact ⟨_, exec_ret_of_top hempty (s.topReturn_eq ⟨by omega, hsp⟩)⟩
  case call nnn =>
    by_cases hfull : 16 ≤ s.sp.toNat
    · exact ⟨_, exec_call_of_full nnn hfull⟩
    · exact ⟨_, exec_call_of_room nnn (by omega)⟩
  all_goals exact ⟨_, rfl⟩

theorem runStep_completes {s : State} (hf : s.fault = none) (hsp : s.sp.toNat ≤ 16) : Completes (runStep s) := by
  cases hd : decode s.fetchBytes with
  | ok p => exact runStep_of_ok hf hd ▸ exec_completes p.1 hsp
  | error e => exact runStep_of_error hf hd ▸ ⟨_, rfl⟩

/-- A `Step` completes or, with a fault latched, stops as halted. -/
theorem BeginsStep.completes_or_halted {s s' : State} {inp : StepInput} (hbegin : BeginsStep s inp s')
    (hsp : s.sp.toNat ≤ 16) : Completes (step s) ∨ ∃ f, s.fault = some f ∧ step s = .fault (.halted f) := by
  have frame := hbegin.frame
  rw [hbegin.step_eq, ← frame.fault]
  cases hf : s'.fault with
  | none => exact .inl (runStep_completes hf (frame.sp ▸ hsp))
  | some f => exact .inr ⟨f, rfl, runStep_of_fault hf⟩

/-- Settles O59, by the host's next event. -/
theorem onlyAHaltedStepOrALateLoadStops : Obligations.OnlyAHaltedStepOrALateLoadStops := by
  refine ⟨fun s hs => ?_, fun s bytes rest => step_of_lateLoad⟩
  have stepEvent : ∀ {inp s'}, BeginsStep s inp s' → _ := fun hbegin => hbegin.completes_or_halted hs.sp_le
  cases hh : s.host with
  | nil => exact (stepEvent (.inl ⟨hh, rfl, rfl⟩)).imp_right .inl
  | cons e rest =>
    cases e with
    | step keys rnd => exact (stepEvent (.inr ⟨keys, rnd, rest, hh, rfl, rfl⟩)).imp_right .inl
    | tick => exact .inl ⟨_, step_of_tick hh⟩
    | reset => exact .inl ⟨_, step_of_reset hh⟩
    | loadProgram bytes =>
      cases hst : s.started with
      | false => exact .inl ⟨_, step_of_earlyLoad hh hst⟩
      | true => exact .inr (.inr ⟨bytes, rest, rfl, rfl, step_of_lateLoad hh hst⟩)

/-- Settles O60: of the events that answer a next state a `Step` begins with no fault latched, and `Tick` and
`LoadProgram` do not write the latch. -/
theorem onlyResetClearsTheLatch : Obligations.OnlyResetClearsTheLatch := by
  intro s t f hf h
  obtain ⟨inp, s', hbegin, hrun⟩ | ⟨rest, -, rfl⟩ | ⟨rest, hh, -⟩ | ⟨bytes, rest, -, -, rfl⟩ := step_cases h
  · rw [runStep_of_fault (hbegin.frame.fault.trans hf)] at hrun
    cases hrun
  · exact .inl hf
  · exact .inr ⟨rest, hh⟩
  · rw [loadProgram_frame]
    exact .inl hf

end Sys2Proof.Machine
end

section
/-! What each instruction writes and what it leaves, read off the frame of the instructions. -/

namespace Sys2Proof.Machine

/-- Settles O48: every instruction completes, and its frame gives the latch and the reported fault. -/
theorem onlyCallAndRetRaise : Obligations.OnlyCallAndRetRaise := by
  intro i s hsp
  obtain ⟨t, hexec⟩ := exec_completes i hsp
  have frame := exec_frame hexec
  refine ⟨t, hexec, frame.fatal, fun hr => ?_, fun f hr => ?_⟩
  · rw [frame.fault, hr, Option.none_or]
  · rw [frame.fault, hr, Option.some_or]

/-- Settles O49. -/
theorem onlyClsAndDrwReportTheScreenDirty : Obligations.OnlyClsAndDrwReportTheScreenDirty :=
  fun _ _ _ h => (exec_frame h).dirty

/-- Settles O50: a `Step` with no fault latched is its instruction, or the no-op, in the state with `pc` advanced. -/
theorem pcAfterEachStep : Obligations.PcAfterEachStep := by
  intro s s' t inp hbegin hf h
  have frame := hbegin.frame
  have hf' : s'.fault = none := frame.fault.trans hf
  rw [hbegin.step_eq] at h
  rw [← frame.fetch, ← frame.pc]
  refine ⟨fun i rest hd => ?_, fun e hd => ?_⟩
  · rw [runStep_of_ok hf' hd] at h
    exact (exec_frame h).pc
  · rw [runStep_of_error hf' hd] at h
    obtain rfl := (complete_eq_next _ _).mp h
    rfl

/-- Settles O51. -/
theorem registersChangeOnlyAsTheTableSays : Obligations.RegistersChangeOnlyAsTheTableSays :=
  fun _ _ _ r h hw => (exec_frame h).regs r hw

/-- Settles O52. -/
theorem onlyCallAndRetMoveTheStack : Obligations.OnlyCallAndRetMoveTheStack := by
  intro i s t h hcall hret
  obtain ⟨hsp, hstack⟩ := (exec_frame h).stack hcall hret
  exact ⟨hsp, fun k => by rw [hstack]⟩

/-- Settles O53: an unwritten screen shows the same pixels and an unwritten memory, with the same font, the same
bytes. -/
theorem screenIndexAndMemoryHaveTheirWriters : Obligations.ScreenIndexAndMemoryHaveTheirWriters := by
  intro i s t h
  have frame := exec_frame h
  refine ⟨fun hd k => ?_, frame.index, fun hb hs a => ?_⟩
  · rw [State.pixel, State.pixel, frame.screen hd]
  · rw [State.readByte, State.readByte, frame.hostSide.1, frame.mem hb hs]

/-- Settles O54. -/
theorem timersHaveTheirWriters : Obligations.TimersHaveTheirWriters :=
  fun _ _ _ h => ⟨(exec_frame h).dt, (exec_frame h).st, (exec_frame h).hostSide⟩

end Sys2Proof.Machine
end

section
/-! The inputs of a `Step` reach the machine through RND, SKP and SKNP only (00_scope.md R3). -/

namespace Sys2Proof.Machine

/-- The state with other inputs of the `Step` in progress. -/
def State.setInput (s : State) (inp : StepInput) : State := { s with input := inp }

/-! ### The shared updates pass the inputs through -/

theorem State.skip_if_setInput (p : Prop) [Decidable p] (s : State) (inp : StepInput) :
    (if p then (s.setInput inp).skip else s.setInput inp) = (if p then s.skip else s).setInput inp :=
  (apply_ite (State.setInput · inp) p s.skip s).symm

theorem State.storeRegs_setInput (ks : List Reg) (s : State) (inp : StepInput) :
    (s.setInput inp).storeRegs ks = (s.storeRegs ks).setInput inp := by
  induction ks generalizing s with
  | nil => rfl
  | cons k rest ih => exact ih (s.writeIndexed k (s.reg k))

theorem State.loadRegs_setInput (ks : List Reg) (s : State) (inp : StepInput) :
    (s.setInput inp).loadRegs ks = (s.loadRegs ks).setInput inp := by
  induction ks generalizing s with
  | nil => rfl
  | cons k rest ih => exact ih (s.setReg k (s.readIndexed k))

/-! ### The instructions pass the inputs through -/

/-- `f` does not read the inputs of the `Step`: with any others it answers the same next state with those. -/
def PassesInputThrough (f : State → Host.Outcome State Fault Refusal) : Prop :=
  ∀ (inp : StepInput) (s t : State), f s = .next t → f (s.setInput inp) = .next (t.setInput inp)

theorem passesInputThrough_complete {g : State → State} (hg : ∀ s inp, g (s.setInput inp) = (g s).setInput inp) :
    PassesInputThrough fun s => complete (g s) := by
  intro inp s t h
  obtain rfl := (complete_eq_next _ _).mp h
  exact congrArg complete (hg s inp)

theorem passesInputThrough_completeDirty {g : State → State} (hg : ∀ s inp, g (s.setInput inp) = (g s).setInput inp) :
    PassesInputThrough fun s => completeDirty (g s) := by
  intro inp s t h
  obtain rfl := (completeDirty_eq_next _ _).mp h
  exact congrArg completeDirty (hg s inp)

theorem passesInputThrough_ret : PassesInputThrough (exec .ret) := by
  intro inp s t h
  obtain ⟨hempty, rfl⟩ | ⟨hsp, a, htop, rfl⟩ := exec_ret_cases h
  · exact exec_ret_of_empty (s := s.setInput inp) hempty
  · exact exec_ret_of_top (s := s.setInput inp) hsp htop

theorem passesInputThrough_call (nnn : Addr) : PassesInputThrough (exec (.call nnn)) := by
  intro inp s t h
  obtain ⟨hfull, rfl⟩ | ⟨hroom, rfl⟩ := exec_call_cases h
  · exact exec_call_of_full nnn (s := s.setInput inp) hfull
  · exact exec_call_of_room nnn (s := s.setInput inp) hroom

/-- Every instruction but the three readers computes its update from fields other than the inputs. -/
theorem exec_passesInputThrough (i : Instr) (hrnd : ∀ x nn, i ≠ .rnd x nn) (hskp : ∀ x, i ≠ .skp x)
    (hsknp : ∀ x, i ≠ .sknp x) : PassesInputThrough (exec i) := by
  cases i
  case rnd x nn => exact absurd rfl (hrnd x nn)
  case skp x => exact absurd rfl (hskp x)
  case sknp x => exact absurd rfl (hsknp x)
  case ret => exact passesInputThrough_ret
  case call nnn => exact passesInputThrough_call nnn
  case se | sne => exact passesInputThrough_complete fun s inp => State.skip_if_setInput _ s inp
  case stm x => exact passesInputThrough_complete fun s inp => s.storeRegs_setInput (regsUpTo x) inp
  case ldm x => exact passesInputThrough_complete fun s inp => s.loadRegs_setInput (regsUpTo x) inp
  case cls | drw => exact passesInputThrough_completeDirty fun _ _ => rfl
  case jp | jpv0 | ldi | addi | mov | or | and | xor | add | sub | shr | subn | shl | ldidx | addidx | bcd | gdt | sdt
      | sst =>
    exact passesInputThrough_complete fun _ _ => rfl

/-- Settles O55: the other inputs replace the first ones in a state that does not read them. -/
theorem inputsReachOnlyTheirReaders : Obligations.InputsReachOnlyTheirReaders :=
  fun i s t a b hrnd hskp hsknp h => exec_passesInputThrough i hrnd hskp hsknp b (s.setInput a) t h

/-! ### Without a keypad -/

theorem exec_skp_of_noKeypad (x : Reg) {s : State} (h : s.params.keypadPresent = false) :
    exec (.skp x) s = complete s := by
  simp [exec, execSkp, h]

theorem exec_sknp_of_noKeypad (x : Reg) {s : State} (h : s.params.keypadPresent = false) :
    exec (.sknp x) s = complete s := by
  simp [exec, execSknp, h]

/-- Settles O56: without a keypad SKP and SKNP are no-ops, RND reads the random byte only, and no other instruction
reads the inputs. -/
theorem keysReachNothingWithoutAKeypad : Obligations.KeysReachNothingWithoutAKeypad := by
  intro i s t k k' r hpad h
  change exec i (s.setInput (.given k r)) = .next t at h
  change exec i (s.setInput (.given k' r)) = .next (t.setInput (.given k' r))
  have hpad' : ∀ inp, (s.setInput inp).params.keypadPresent = false := fun _ => hpad
  cases i
  case skp x =>
    rw [exec_skp_of_noKeypad x (hpad' _)] at h ⊢
    obtain rfl := (complete_eq_next _ _).mp h
    rfl
  case sknp x =>
    rw [exec_sknp_of_noKeypad x (hpad' _)] at h ⊢
    obtain rfl := (complete_eq_next _ _).mp h
    rfl
  case rnd x nn =>
    obtain rfl := (complete_eq_next _ _).mp h
    rfl
  all_goals exact inputsReachOnlyTheirReaders _ s t (.given k r) (.given k' r) (by simp) (by simp) (by simp) h

end Sys2Proof.Machine
end

section
/-! Memory as a map from addresses to bytes: the canonical form is determined by what it reads as (20_memory.md
section 1), and the addresses an access goes to (section 2). -/

namespace Sys2Proof.Machine

/-! ### Memories that read alike -/

/-- A rising list lists a byte for an address exactly when a lookup finds it. -/
theorem Memory.mem_iff_find {m : Memory} (hm : m.Pairwise (fun c d => c.1 < d.1)) (a : Nat) (b : Byte) :
    (a, b) ∈ m ↔ Memory.find m a = some b := by
  induction m with
  | nil => simp [Memory.find]
  | cons c rest ih =>
    obtain ⟨k, v⟩ := c
    obtain ⟨hk, hr⟩ := List.pairwise_cons.mp hm
    simp only [Memory.find, List.mem_cons, Prod.mk.injEq, ih hr]
    by_cases hka : k = a
    · subst hka
      rw [if_pos rfl, Memory.find_eq_none_of_lt hk]
      simp [eq_comm]
    · rw [if_neg hka]
      simp [Ne.symm hka]

/-- A canonical memory lists exactly the addresses that read otherwise than after reset, with what they read as. -/
theorem Memory.mem_iff_read {font : Font} {m : Memory} (hm : Memory.wf font m) (c : Host.Cell) :
    c ∈ m ↔ c.1 < 4096 ∧ c.2 ≠ Memory.background font c.1 ∧ Memory.read font m (BitVec.ofNat 12 c.1) = c.2 := by
  obtain ⟨a, b⟩ := c
  constructor
  · intro hc
    obtain ⟨ha, hb⟩ := hm.2 _ hc
    have hfind := (Memory.mem_iff_find hm.1 a b).mp hc
    refine ⟨ha, hb, ?_⟩
    rw [Memory.read, BitVec.toNat_ofNat, Nat.mod_eq_of_lt ha, hfind, Option.getD_some]
  · rintro ⟨ha, hb, hread⟩
    rw [Memory.read, BitVec.toNat_ofNat, Nat.mod_eq_of_lt ha] at hread
    rw [Memory.mem_iff_find hm.1]
    cases hfind : Memory.find m a with
    | none => rw [hfind] at hread; exact absurd hread.symm hb
    | some b' => rw [hfind] at hread; exact congrArg some hread

/-- Canonical memories are determined by what they read as: rising lists with the same members are the same list. -/
theorem Memory.ext_of_read {font : Font} {m m' : Memory} (hm : Memory.wf font m) (hm' : Memory.wf font m')
    (h : ∀ a, Memory.read font m a = Memory.read font m' a) : m = m' := by
  have hmem : ∀ c, c ∈ m ↔ c ∈ m' := fun c => by rw [Memory.mem_iff_read hm, Memory.mem_iff_read hm', h]
  have nodup : ∀ {l : Memory}, l.Pairwise (fun c d => c.1 < d.1) → l.Nodup :=
    fun hl => hl.imp fun hlt heq => absurd (congrArg Prod.fst heq) (Nat.ne_of_lt hlt)
  have hperm : m.Perm m' := (List.perm_ext_iff_of_nodup (nodup hm.1) (nodup hm'.1)).mpr hmem
  exact hperm.eq_of_pairwise (fun c d _ _ hcd hdc => absurd hcd (Nat.lt_asymm hdc)) hm.1 hm'.1

/-- Settles O12. -/
theorem memoriesThatReadAlikeAreEqual : Obligations.MemoriesThatReadAlikeAreEqual :=
  fun _ _ _ => Memory.ext_of_read

/-- A second write of the byte already there changes nothing: the memories read alike. -/
theorem State.writeByte_writeByte_same (s : State) (a : Addr) (b : Byte) (hm : Memory.wf s.params.font s.mem) :
    (s.writeByte a b).writeByte a b = s.writeByte a b := by
  have hw := Memory.wf_write a b hm
  have heq : Memory.write s.params.font (Memory.write s.params.font s.mem a b) a b =
      Memory.write s.params.font s.mem a b := by
    refine Memory.ext_of_read (Memory.wf_write a b hw) hw fun c => ?_
    rw [Memory.read_write a c b hw, Memory.read_write a c b hm]
    split <;> rfl
  exact congrArg (fun m => { s with mem := m }) heq

/-- Settles O11: reads and the canonical form by the laws of memory, the second write by extensionality. -/
theorem memoryReadsTheLastWrite : Obligations.MemoryReadsTheLastWrite := by
  intro s a b hm
  refine ⟨?same, fun a' ha' => ?other, s.writeByte_writeByte_same a b hm, s.writeByte_wf a b hm⟩
  case same => rw [State.readByte_writeByte _ _ _ _ hm, if_pos rfl]
  case other => rw [State.readByte_writeByte _ _ _ _ hm, if_neg ha']

/-! ### Addresses -/

/-- `EA(a)` as a number (20_memory.md R41). -/
theorem toNat_ea (a : Word) : (ea a).toNat = a.toNat % 4096 := BitVec.toNat_setWidth 12 a

theorem toNat_and_addressMask (a : Word) : (a &&& 0xFFF).toNat = a.toNat % 4096 := by
  rw [BitVec.toNat_and]; exact Nat.and_two_pow_sub_one_eq_mod a.toNat 12

/-- Settles O7. -/
theorem effectiveAddressMasksTo12Bits : Obligations.EffectiveAddressMasksTo12Bits :=
  fun s a k b => ⟨(toNat_ea a).trans (toNat_and_addressMask a).symm, toNat_ea a, rfl, s.indexAddr_toNat k,
    s.readIndexed_eq k, s.writeIndexed_eq k b⟩

theorem toNat_ea_succ (a : Word) : (ea (a + 1)).toNat = (a.toNat + 1) % 4096 := by
  rw [toNat_ea, BitVec.toNat_add]
  exact Nat.mod_mod_of_dvd (a.toNat + 1) (by decide)

/-- Settles O6: the fetched bytes are at `EA(pc)` and `EA(pc + 1)`. -/
theorem fetchIsBigEndianAndMasked : Obligations.FetchIsBigEndianAndMasked :=
  fun s => ⟨ea s.pc, ea (s.pc + 1), toNat_ea s.pc, toNat_ea_succ s.pc, rfl, toNat_wordOfBytes _ _⟩

end Sys2Proof.Machine
end

section
/-! The program load (20_memory.md section 5) and the other events of the host. -/

namespace Sys2Proof.Machine

/-! ### The bytes of a load -/

theorem ea_ofNat {a : Nat} : ea (BitVec.ofNat 16 a) = BitVec.ofNat 12 a :=
  BitVec.setWidth_ofNat_of_le (by decide) a

/-- What an address reads as after bytes were copied to `a` on, inside memory. -/
theorem State.writeBytes_readByte (bytes : List Byte) (a : Nat) (s : State) (c : Addr)
    (hm : Memory.wf s.params.font s.mem) (ha : a + bytes.length ≤ 4096) :
    (s.writeBytes (BitVec.ofNat 16 a) bytes).readByte c =
      if a ≤ c.toNat then (bytes[c.toNat - a]?).getD (s.readByte c) else s.readByte c := by
  induction bytes generalizing a s with
  | nil => simp [State.writeBytes]
  | cons b rest ih =>
    rw [List.length_cons] at ha
    have hnext : BitVec.ofNat 16 a + 1 = BitVec.ofNat 16 (a + 1) := (BitVec.ofNat_add a 1).symm
    have hc : c = ea (BitVec.ofNat 16 a) ↔ c.toNat = a := by
      rw [ea_ofNat, ← BitVec.toNat_inj, BitVec.toNat_ofNat, Nat.mod_eq_of_lt (by omega)]
    rw [State.writeBytes, hnext, ih (a + 1) _ (s.writeByte_wf _ _ hm) (by omega), State.readByte_writeByte _ _ _ _ hm]
    simp only [hc]
    rcases Nat.lt_trichotomy c.toNat a with h | h | h
    · rw [if_neg (by omega), if_neg (by omega), if_neg (by omega)]
    · rw [if_neg (by omega), if_pos h, if_pos (by omega), h, Nat.sub_self, List.getElem?_cons_zero, Option.getD_some]
    · have hk : c.toNat - a = (c.toNat - (a + 1)) + 1 := by omega
      rw [if_pos (by omega), if_neg (by omega), if_pos (by omega), hk, List.getElem?_cons_succ]

theorem loadProgram_of_fits {bytes : List Byte} (s : State) (h : bytes.length ≤ 3584) :
    loadProgram bytes s = (s.writeBytes 0x0200 bytes).answerLoad .ok :=
  if_pos (decide_eq_true h)

theorem loadProgram_of_tooLarge {bytes : List Byte} (s : State) (h : 3584 < bytes.length) :
    loadProgram bytes s = s.answerLoad .programTooLarge :=
  if_neg (by rw [programFits, decide_eq_true_eq]; exact Nat.not_le.mpr h)

/-- Settles O17: the load copies the bytes from 0x200 on, all inside memory. -/
theorem loadProgramCopiesTheBytes : Obligations.LoadProgramCopiesTheBytes := by
  intro s bytes rest hh hstarted hlen hm
  have hread := fun c => State.writeBytes_readByte bytes 0x200 { s with host := rest } c hm (by omega)
  refine ⟨_, (step_of_earlyLoad hh hstarted).trans (congrArg _ (loadProgram_of_fits _ hlen)),
    fun k hk => ?copied, fun a ha => ?kept, ?frame⟩
  case copied =>
    have haddr : (BitVec.ofNat 12 (0x200 + k)).toNat = 0x200 + k := by
      rw [BitVec.toNat_ofNat, Nat.mod_eq_of_lt (by omega)]
    rw [State.answerLoad_readByte]
    refine (hread _).trans ?_
    rw [haddr, if_pos (by omega), Nat.add_sub_cancel_left, List.getElem?_eq_getElem hk, Option.getD_some]
  case kept =>
    rw [State.answerLoad_readByte]
    refine (hread a).trans ?_
    split
    · rw [List.getElem?_eq_none (by omega)]; rfl
    · rfl
  case frame => rw [State.writeBytes_frame]; rfl

/-- Settles O18. -/
theorem programTooLargeChangesNothing : Obligations.ProgramTooLargeChangesNothing :=
  fun _ _ _ hh hstarted hlen => (step_of_earlyLoad hh hstarted).trans (congrArg _ (loadProgram_of_tooLarge _ hlen))

/-! ### Tick and Reset -/

/-- Natural subtraction clamps at 0 as the timer does (60_exceptions.md R160). -/
theorem toNat_tickTimer (t : Byte) : (tickTimer t).toNat = t.toNat - 1 := by
  unfold tickTimer
  split
  · next h => rw [h]; rfl
  · bv_omega

/-- Settles O14. -/
theorem tickDecrementsTheTimers : Obligations.TickDecrementsTheTimers :=
  fun s _ hh => ⟨_, step_of_tick hh, toNat_tickTimer s.dt, toNat_tickTimer s.st, rfl⟩

/-- Settles O15: the event's state differs from the reset state in the host's queue and the counter only. -/
theorem resetEventInitializes : Obligations.ResetEventInitializes := by
  intro s rest hh
  have reset := State.resetWith_afterReset s.params
  exact ⟨_, step_of_reset hh,
    ⟨reset.font, reset.zero, reset.regs, rfl, rfl, rfl, reset.stack, rfl, rfl, reset.screen, rfl⟩, rfl, rfl, rfl, rfl⟩

/-! ### Step -/

/-- Settles O10. -/
theorem latchStopsStepsAndNotTicks : Obligations.LatchStopsStepsAndNotTicks :=
  ⟨fun _ _ _ _ hbegin hf => hbegin.step_eq.trans (runStep_of_fault (hbegin.frame.fault.trans hf)),
    fun _ _ => step_of_tick⟩

/-- Settles O8: the `Step` begins with the same `pc` and the same bytes there. -/
theorem stepRunsTheDecodedInstruction : Obligations.StepRunsTheDecodedInstruction := by
  intro s s' inp i rest hbegin hf hd
  have frame := hbegin.frame
  rw [hbegin.step_eq, runStep_of_ok (frame.fault.trans hf) (frame.fetch ▸ hd), ← frame.pc]
  rfl

/-- Settles O9. -/
theorem unrecognizedWordIsANoOp : Obligations.UnrecognizedWordIsANoOp := by
  intro s s' inp c hbegin hf hd
  have frame := hbegin.frame
  refine ⟨_, hbegin.step_eq.trans (runStep_of_error (frame.fault.trans hf) (frame.fetch ▸ hd)), ?_, ?_, rfl⟩
  · rw [← frame.pc]; rfl
  · exact s'.report_setPc_keepsAllButPc _ _

/-- Settles O27: the jump writes the `pc` the fetch had advanced back to its own address. -/
theorem jumpToItselfIsIdle : Obligations.JumpToItselfIsIdle := by
  intro s s' inp nnn hbegin hf hpc hd
  refine ⟨_, stepRunsTheDecodedInstruction s s' inp _ [] hbegin hf hd, hpc.symm, ?_⟩
  exact s'.report_setPc_keepsAllButPc (zextAddr nnn) Effect.quiet

end Sys2Proof.Machine
end

section
/-! The decoder against the opcode table (30_encoding.md R66) and against the classes of unrecognized words
(45_unrecognized.md R141 to R146). -/

namespace Sys2Proof

/-! ### The rows of the table -/

/-- Every instruction's word matches its own row. -/
theorem encodesOwnRow (i : Instr) : Laws.EncodesOwnRow.Statement i := by
  cases i with
  | cls => exact Laws.EncodesOwnRow.cls
  | ret => exact Laws.EncodesOwnRow.ret
  | jp nnn => exact Laws.EncodesOwnRow.jp nnn
  | call nnn => exact Laws.EncodesOwnRow.call nnn
  | se x nn => exact Laws.EncodesOwnRow.se x nn
  | sne x nn => exact Laws.EncodesOwnRow.sne x nn
  | ldi x nn => exact Laws.EncodesOwnRow.ldi x nn
  | addi x nn => exact Laws.EncodesOwnRow.addi x nn
  | mov x y => exact Laws.EncodesOwnRow.mov x y
  | or x y => exact Laws.EncodesOwnRow.or x y
  | and x y => exact Laws.EncodesOwnRow.and x y
  | xor x y => exact Laws.EncodesOwnRow.xor x y
  | add x y => exact Laws.EncodesOwnRow.add x y
  | sub x y => exact Laws.EncodesOwnRow.sub x y
  | shr x y => exact Laws.EncodesOwnRow.shr x y
  | subn x y => exact Laws.EncodesOwnRow.subn x y
  | shl x y => exact Laws.EncodesOwnRow.shl x y
  | ldidx nnn => exact Laws.EncodesOwnRow.ldidx nnn
  | jpv0 nnn => exact Laws.EncodesOwnRow.jpv0 nnn
  | rnd x nn => exact Laws.EncodesOwnRow.rnd x nn
  | drw x y n => exact Laws.EncodesOwnRow.drw x y n
  | skp x => exact Laws.EncodesOwnRow.skp x
  | sknp x => exact Laws.EncodesOwnRow.sknp x
  | gdt x => exact Laws.EncodesOwnRow.gdt x
  | sdt x => exact Laws.EncodesOwnRow.sdt x
  | sst x => exact Laws.EncodesOwnRow.sst x
  | addidx x => exact Laws.EncodesOwnRow.addidx x
  | bcd x => exact Laws.EncodesOwnRow.bcd x
  | stm x => exact Laws.EncodesOwnRow.stm x
  | ldm x => exact Laws.EncodesOwnRow.ldm x

/-- Every word that matches the row is the word of an instruction. -/
def OpcodeRow.OnlyEncodings (r : OpcodeRow) : Prop := ∀ w : Word, w &&& r.mask = r.pattern → ∃ i, encode i = w

section
variable {name : String} {pattern : Word}

theorem onlyEncodings_whole (i : Instr) (h : encode i = pattern) : OpcodeRow.OnlyEncodings ⟨name, pattern, 0xFFFF⟩ :=
  fun w hw => ⟨i, h.trans (hw.symm.trans (BitVec.and_allOnes (x := w)))⟩

theorem opcodeOf_of_mask {op : BitVec 4} {w : Word} (h : w &&& 0xF000 = formatNNN op 0) : opcodeOf w = op := by
  rw [and_mask_opcode] at h
  simpa using congrArg opcodeOf h

/-- A row of the format `NNN`. -/
theorem onlyEncodings_nnn {op : BitVec 4} (row : Addr → Instr) (hrow : ∀ nnn, encode (row nnn) = formatNNN op nnn)
    (hp : formatNNN op 0 = pattern) : OpcodeRow.OnlyEncodings ⟨name, pattern, 0xF000⟩ :=
  fun w hw => ⟨row (nnnOf w), by rw [hrow, ← opcodeOf_of_mask (hw.trans hp.symm), formatNNN_fields]⟩

/-- A row of the format `XNN`. -/
theorem onlyEncodings_xnn {op : BitVec 4} (row : Reg → Byte → Instr)
    (hrow : ∀ x nn, encode (row x nn) = formatXNN op x nn) (hp : formatNNN op 0 = pattern) :
    OpcodeRow.OnlyEncodings ⟨name, pattern, 0xF000⟩ :=
  fun w hw => ⟨row (xOf w) (nnOf w), by rw [hrow, ← opcodeOf_of_mask (hw.trans hp.symm), formatXNN_fields]⟩

/-- A row of the format `XYN`. -/
theorem onlyEncodings_xyn {op : BitVec 4} (row : Reg → Reg → BitVec 4 → Instr)
    (hrow : ∀ x y n, encode (row x y n) = formatXYN op x y n) (hp : formatNNN op 0 = pattern) :
    OpcodeRow.OnlyEncodings ⟨name, pattern, 0xF000⟩ :=
  fun w hw => ⟨row (xOf w) (yOf w) (nOf w), by
    rw [hrow, ← opcodeOf_of_mask (hw.trans hp.symm), formatXYN_fields]⟩

/-- A row of the format `XY`, selected by `n`. -/
theorem onlyEncodings_xy {op n : BitVec 4} (row : Reg → Reg → Instr)
    (hrow : ∀ x y, encode (row x y) = formatXYN op x y n) (hp : formatXYN op 0 0 n = pattern) :
    OpcodeRow.OnlyEncodings ⟨name, pattern, 0xF00F⟩ := by
  intro w hw
  have h : formatXYN (opcodeOf w) 0 0 (nOf w) = formatXYN op 0 0 n := and_mask_opcode_n w ▸ hw.trans hp.symm
  have hop : opcodeOf w = op := by simpa using congrArg opcodeOf h
  have hn : nOf w = n := by simpa using congrArg nOf h
  exact ⟨row (xOf w) (yOf w), by rw [hrow, ← hop, ← hn, formatXYN_fields]⟩

/-- A row of the format `X`, selected by `nn`. -/
theorem onlyEncodings_x {op : BitVec 4} {nn : Byte} (row : Reg → Instr)
    (hrow : ∀ x, encode (row x) = formatXNN op x nn) (hp : formatXNN op 0 nn = pattern) :
    OpcodeRow.OnlyEncodings ⟨name, pattern, 0xF0FF⟩ := by
  intro w hw
  have h : formatXNN (opcodeOf w) 0 (nnOf w) = formatXNN op 0 nn := and_mask_opcode_nn w ▸ hw.trans hp.symm
  have hop : opcodeOf w = op := by simpa using congrArg opcodeOf h
  have hnn : nnOf w = nn := by simpa using congrArg nnOf h
  exact ⟨row (xOf w), by rw [hrow, ← hop, ← hnn, formatXNN_fields]⟩

end

/-- The 30 rows, in the table's order. -/
theorem opcodeTable_onlyEncodings : ∀ r ∈ opcodeTable, r.OnlyEncodings := by
  simp only [opcodeTable, List.forall_mem_cons, List.not_mem_nil, false_imp_iff, implies_true, and_true]
  exact ⟨onlyEncodings_whole .cls rfl, onlyEncodings_whole .ret rfl,
    onlyEncodings_nnn .jp (fun _ => rfl) rfl, onlyEncodings_nnn .call (fun _ => rfl) rfl,
    onlyEncodings_xnn .se (fun _ _ => rfl) rfl, onlyEncodings_xnn .sne (fun _ _ => rfl) rfl,
    onlyEncodings_xnn .ldi (fun _ _ => rfl) rfl, onlyEncodings_xnn .addi (fun _ _ => rfl) rfl,
    onlyEncodings_xy .mov (fun _ _ => rfl) rfl, onlyEncodings_xy .or (fun _ _ => rfl) rfl,
    onlyEncodings_xy .and (fun _ _ => rfl) rfl, onlyEncodings_xy .xor (fun _ _ => rfl) rfl,
    onlyEncodings_xy .add (fun _ _ => rfl) rfl, onlyEncodings_xy .sub (fun _ _ => rfl) rfl,
    onlyEncodings_xy .shr (fun _ _ => rfl) rfl, onlyEncodings_xy .subn (fun _ _ => rfl) rfl,
    onlyEncodings_xy .shl (fun _ _ => rfl) rfl, onlyEncodings_nnn .ldidx (fun _ => rfl) rfl,
    onlyEncodings_nnn .jpv0 (fun _ => rfl) rfl, onlyEncodings_xnn .rnd (fun _ _ => rfl) rfl,
    onlyEncodings_xyn .drw (fun _ _ _ => rfl) rfl, onlyEncodings_x .skp (fun _ => rfl) rfl,
    onlyEncodings_x .sknp (fun _ => rfl) rfl, onlyEncodings_x .gdt (fun _ => rfl) rfl,
    onlyEncodings_x .sdt (fun _ => rfl) rfl, onlyEncodings_x .sst (fun _ => rfl) rfl,
    onlyEncodings_x .addidx (fun _ => rfl) rfl, onlyEncodings_x .bcd (fun _ => rfl) rfl,
    onlyEncodings_x .stm (fun _ => rfl) rfl, onlyEncodings_x .ldm (fun _ => rfl) rfl⟩

/-- Two rows that agree on the bits both masks keep are the same row. -/
theorem opcodeTable_disjoint : ∀ r₁ ∈ opcodeTable, ∀ r₂ ∈ opcodeTable,
    r₁.pattern &&& r₂.mask = r₂.pattern &&& r₁.mask → r₁ = r₂ := by
  decide

/-- Settles O3: an instruction's word matches its row, a word that matches a row is an instruction's, and two rows
matched by one word agree on the bits both masks keep. -/
theorem recognizedWordsAreTheTablesRows : Obligations.RecognizedWordsAreTheTablesRows := by
  refine ⟨fun w => ⟨?row, ?recognized⟩, fun w r₁ h₁ r₂ h₂ hw₁ hw₂ => ?disjoint⟩
  case row =>
    rintro ⟨i, hi⟩
    obtain ⟨r, hr, -, hrow⟩ := encodesOwnRow i
    exact ⟨r, hr, encodeOfDecodeIsTheWord w i hi ▸ hrow⟩
  case recognized =>
    rintro ⟨r, hr, hw⟩
    obtain ⟨i, rfl⟩ := opcodeTable_onlyEncodings r hr w hw
    exact ⟨i, decodeWord_encode i⟩
  case disjoint =>
    refine opcodeTable_disjoint r₁ h₁ r₂ h₂ ?_
    rw [← hw₁, ← hw₂, BitVec.and_assoc, BitVec.and_assoc, BitVec.and_comm r₁.mask]

/-- Settles O5. -/
theorem sampleWordsDecode : Obligations.SampleWordsDecode := by
  unfold Obligations.SampleWordsDecode
  decide

/-! ### Unrecognized words -/

/-- The opcode of a class of unrecognized words. -/
def Unrecognized.opcode : Unrecognized → BitVec 4
  | .family0 => 0x0#4
  | .family5 => 0x5#4
  | .family9 => 0x9#4
  | .family8 => 0x8#4
  | .familyE => 0xE#4
  | .familyF => 0xF#4

section
variable {w : Word} {c : Unrecognized}

theorem opcodeOf_eq_iff (op : BitVec 4) : opcodeOf w = op ↔ w.toNat / 4096 = op.toNat := by
  rw [← BitVec.toNat_inj, toNat_opcodeOf]

theorem family_of_decodeFamily0 (h : decodeFamily0 w = .error c) : c = .family0 := by
  simp only [decodeFamily0] at h
  split_ifs at h; cases h; rfl

theorem family_of_decodeFamily8 (h : decodeFamily8 w = .error c) : c = .family8 := by
  simp only [decodeFamily8] at h
  split_ifs at h; cases h; rfl

theorem family_of_decodeFamilyE (h : decodeFamilyE w = .error c) : c = .familyE := by
  simp only [decodeFamilyE] at h
  split_ifs at h; cases h; rfl

theorem family_of_decodeFamilyF (h : decodeFamilyF w = .error c) : c = .familyF := by
  simp only [decodeFamilyF] at h
  split_ifs at h; cases h; rfl

/-- A word is unrecognized under its own opcode. -/
theorem opcodeOf_of_decodeWord_error (h : decodeWord w = .error c) : opcodeOf w = c.opcode := by
  rcases opcode_cases (opcodeOf w) with
    o | o | o | o | o | o | o | o | o | o | o | o | o | o | o | o
  · obtain rfl := family_of_decodeFamily0 (decodeWord_opcode0 o ▸ h); exact o
  · cases decodeWord_opcode1 o ▸ h
  · cases decodeWord_opcode2 o ▸ h
  · cases decodeWord_opcode3 o ▸ h
  · cases decodeWord_opcode4 o ▸ h
  · cases decodeWord_opcode5 o ▸ h; exact o
  · cases decodeWord_opcode6 o ▸ h
  · cases decodeWord_opcode7 o ▸ h
  · obtain rfl := family_of_decodeFamily8 (decodeWord_opcode8 o ▸ h); exact o
  · cases decodeWord_opcode9 o ▸ h; exact o
  · cases decodeWord_opcodeA o ▸ h
  · cases decodeWord_opcodeB o ▸ h
  · cases decodeWord_opcodeC o ▸ h
  · cases decodeWord_opcodeD o ▸ h
  · obtain rfl := family_of_decodeFamilyE (decodeWord_opcodeE o ▸ h); exact o
  · obtain rfl := family_of_decodeFamilyF (decodeWord_opcodeF o ▸ h); exact o

/-- A class of unrecognized words is a part of the words of its opcode: those its family refuses. -/
theorem decodeWord_eq_error_iff {family : Word → Except Unrecognized Instr}
    (hfamily : ∀ {w}, opcodeOf w = c.opcode → decodeWord w = family w) :
    decodeWord w = .error c ↔ w.toNat / 4096 = c.opcode.toNat ∧ family w = .error c := by
  rw [← opcodeOf_eq_iff]
  exact ⟨fun h => have ho := opcodeOf_of_decodeWord_error h; ⟨ho, hfamily ho ▸ h⟩, fun ⟨ho, h⟩ => (hfamily ho).trans h⟩

theorem decodeFamily0_eq_error_iff :
    decodeFamily0 w = .error .family0 ↔ w.toNat % 4096 ≠ 0x0E0 ∧ w.toNat % 4096 ≠ 0x0EE := by
  rw [← toNat_nnnOf]
  simp only [decodeFamily0]
  split_ifs with h₁ h₂
  · simp [h₁]
  · simp [h₂]
  · simpa using ⟨fun h => h₁ (BitVec.eq_of_toNat_eq h), fun h => h₂ (BitVec.eq_of_toNat_eq h)⟩

theorem decodeFamily8_eq_error_iff :
    decodeFamily8 w = .error .family8 ↔ w.toNat % 16 ∈ [0x8, 0x9, 0xA, 0xB, 0xC, 0xD, 0xF] := by
  rw [← toNat_nOf]
  simp only [decodeFamily8]
  split_ifs
  case neg => simp only [true_iff, List.mem_cons, List.not_mem_nil, or_false]; bv_omega
  all_goals simp [‹nOf w = _›]

theorem decodeFamilyE_eq_error_iff :
    decodeFamilyE w = .error .familyE ↔ w.toNat % 256 ∉ [0x9E, 0xA1] := by
  rw [← toNat_nnOf]
  simp only [decodeFamilyE]
  split_ifs
  case neg => simp only [true_iff, List.mem_cons, List.not_mem_nil, or_false]; bv_omega
  all_goals simp [‹nnOf w = _›]

theorem decodeFamilyF_eq_error_iff :
    decodeFamilyF w = .error .familyF ↔ w.toNat % 256 ∉ [0x07, 0x15, 0x18, 0x1E, 0x33, 0x55, 0x65] := by
  rw [← toNat_nnOf]
  simp only [decodeFamilyF]
  split_ifs
  case neg => simp only [true_iff, List.mem_cons, List.not_mem_nil, or_false]; bv_omega
  all_goals simp [‹nnOf w = _›]

end

/-- Settles O4: each class is the words of its opcode that its family refuses, by value. -/
theorem unrecognizedWordsByClass : Obligations.UnrecognizedWordsByClass := by
  intro w
  have hw := w.isLt
  refine ⟨?family0, ?family5, ?family9, ?family8, ?familyE, ?familyF⟩
  case family0 =>
    rw [decodeWord_eq_error_iff decodeWord_opcode0, decodeFamily0_eq_error_iff]
    simp only [Unrecognized.opcode, BitVec.toNat_ofNat]
    omega
  case family5 =>
    rw [decodeWord_eq_error_iff decodeWord_opcode5]
    simp only [Unrecognized.opcode, BitVec.toNat_ofNat, and_true]
    omega
  case family9 =>
    rw [decodeWord_eq_error_iff decodeWord_opcode9]
    simp only [Unrecognized.opcode, BitVec.toNat_ofNat, and_true]
    omega
  case family8 =>
    rw [decodeWord_eq_error_iff decodeWord_opcode8, decodeFamily8_eq_error_iff]; rfl
  case familyE =>
    rw [decodeWord_eq_error_iff decodeWord_opcodeE, decodeFamilyE_eq_error_iff]; rfl
  case familyF =>
    rw [decodeWord_eq_error_iff decodeWord_opcodeF, decodeFamilyF_eq_error_iff]; rfl

end Sys2Proof
end

section
/-! The words of the instructions as numbers, and how an instruction ends: what the statements of the single
instructions share. -/

namespace Sys2Proof

/-- A word that is an instruction's word decodes to it. -/
theorem decodeWord_of_encode (i : Instr) {w : Word} (h : encode i = w) : decodeWord w = .ok i :=
  h ▸ decodeWord_encode i

/-- A word of the format `X` as the row's number with `x` in its field (30_encoding.md R66). -/
theorem formatXNN_eq_ofNat_row (op : BitVec 4) (x : Reg) (nn : Byte) :
    formatXNN op x nn = BitVec.ofNat 16 (4096 * op.toNat + nn.toNat + 256 * x.val) := by
  rw [formatXNN_eq_ofNat, Nat.add_right_comm]

/-- A word of the format `XY` as the row's number with `x` and `y` in their fields (30_encoding.md R66). -/
theorem formatXYN_eq_ofNat_row (op : BitVec 4) (x y : Reg) (n : BitVec 4) :
    formatXYN op x y n = BitVec.ofNat 16 (4096 * op.toNat + n.toNat + 256 * x.val + 16 * y.val) := by
  rw [formatXYN_eq_ofNat, Nat.add_right_comm, Nat.add_right_comm (4096 * op.toNat) (256 * x.val)]

namespace Machine

theorem effect_of_complete {s t : State} (h : complete s = .next t) : t.effect = Effect.quiet := by
  obtain rfl := (complete_eq_next _ _).mp h
  rfl

/-- What every instruction that writes a result and a flag and is done does to the registers, and its frame. -/
theorem complete_setResultAndFlag_spec (x : Reg) (b : Byte) (f : Bool) (s : State) :
    ∃ t, complete (s.setResultAndFlag x b f) = .next t ∧
      (∀ r, (t.reg r).toNat =
        if r = 15 then (if f = true then 1 else 0) else if r = x then b.toNat else (s.reg r).toNat) ∧
      t.pc = s.pc ∧ KeepsAllButRegs s t ∧ t.effect = Effect.quiet := by
  refine ⟨_, rfl, fun r => ?_, rfl, State.report_setReg_keepsAllButRegs (s.setReg x b) vf (flagByte f) _, rfl⟩
  rw [State.report_reg, State.setResultAndFlag_reg, apply_ite BitVec.toNat, apply_ite BitVec.toNat, flagByte_toNat]

end Machine
end Sys2Proof
end

section
/-! The control transfers (40_control_flow.md R80 to R82, R85). -/

namespace Sys2Proof.Machine

theorem exec_jp (nnn : Addr) (s : State) : exec (.jp nnn) s = complete (s.setPc (zextAddr nnn)) := rfl

theorem exec_jpv0 (nnn : Addr) (s : State) :
    exec (.jpv0 nnn) s = complete (s.setPc (zextAddr nnn + zextByte (s.reg 0))) := rfl

/-- Settles O19. -/
theorem jpSetsThePc : Obligations.JpSetsThePc :=
  fun nnn s => ⟨decodeWord_of_encode (.jp nnn) (formatNNN_eq_ofNat 0x1#4 nnn), _, exec_jp nnn s, toNat_zextAddr nnn,
    s.report_setPc_keepsAllButPc _ _⟩

/-- The sum of a 12-bit and an 8-bit number fits 16 bits. -/
theorem toNat_zextAddr_add_zextByte (nnn : Addr) (b : Byte) :
    (zextAddr nnn + zextByte b).toNat = nnn.toNat + b.toNat := by
  have hb : (zextByte b).toNat = b.toNat := BitVec.toNat_setWidth_of_le (by decide)
  rw [BitVec.toNat_add, toNat_zextAddr, hb, Nat.mod_eq_of_lt (by omega)]

/-- Settles O26. -/
theorem jpv0AddsRegisterZero : Obligations.Jpv0AddsRegisterZero := by
  intro nnn s
  have hsum := toNat_zextAddr_add_zextByte nnn (s.reg 0)
  exact ⟨decodeWord_of_encode (.jpv0 nnn) (formatNNN_eq_ofNat 0xB#4 nnn), _, exec_jpv0 nnn s, hsum,
    hsum.trans_le (by omega), s.report_setPc_keepsAllButPc _ _, rfl⟩

/-- The pushed entry and the entries below and above it. -/
theorem State.pushReturn_stack_getElem (s : State) (a : Word) (k : Fin 16) :
    (s.pushReturn a).stack[k] = if k.val = s.sp.toNat then a else s.stack[k] := by
  simp only [State.pushReturn_stack, Fin.getElem_fin, Vector.getElem_setIfInBounds, eq_comm]

/-- Settles O20: the call pushes, then jumps. -/
theorem callPushesTheReturnAddress : Obligations.CallPushesTheReturnAddress :=
  fun nnn s hroom => ⟨decodeWord_of_encode (.call nnn) (formatNNN_eq_ofNat 0x2#4 nnn), _, exec_call_of_room nnn hroom,
    toNat_zextAddr nnn, s.toNat_pushReturn_sp s.pc hroom, s.pushReturn_stack_getElem s.pc, fun _ => rfl, fun _ => rfl,
    rfl, ⟨rfl, rfl⟩, fun _ => rfl, rfl, ⟨rfl, rfl, rfl, rfl, rfl, rfl⟩, rfl⟩

/-- Settles O21. -/
theorem callWithAFullStackRaises : Obligations.CallWithAFullStackRaises :=
  fun nnn _ hfull => exec_call_of_full nnn hfull

/-- Settles O23. -/
theorem retWithAnEmptyStackRaises : Obligations.RetWithAnEmptyStackRaises := fun _ hempty => exec_ret_of_empty hempty

theorem State.sp_ne_zero {s : State} (h : 0 < s.sp.toNat) : s.sp ≠ 0 := by
  intro h0
  rw [h0] at h
  exact absurd h (Nat.lt_irrefl 0)

/-- Settles O22: the top entry exists, and the return drops it and jumps there. -/
theorem retPopsTheReturnAddress : Obligations.RetPopsTheReturnAddress := by
  intro s h
  have hne := State.sp_ne_zero h.1
  exact ⟨decodeWord_encode .ret, _, exec_ret_of_top hne (s.topReturn_eq h), rfl, s.toNat_dropReturn_sp hne,
    fun _ => rfl, fun _ => rfl, fun _ => rfl, rfl, ⟨rfl, rfl⟩, fun _ => rfl, rfl, ⟨rfl, rfl, rfl, rfl, rfl, rfl⟩, rfl⟩

/-- Settles O24: the entry a return finds at `sp` after the call is the one the call pushed there. -/
theorem returnUndoesCall : Obligations.ReturnUndoesCall := by
  intro nnn s hroom
  refine ⟨_, exec_call_of_room nnn hroom, fun u ⟨husp, hustack⟩ => ?_⟩
  have hsp : u.sp.toNat = s.sp.toNat + 1 := (congrArg BitVec.toNat husp).trans (s.toNat_pushReturn_sp s.pc hroom)
  have hne : u.sp ≠ 0 := State.sp_ne_zero (by omega)
  have htop : u.topReturn = some s.pc := by
    have hentry := (hustack ⟨s.sp.toNat, hroom⟩).trans (s.pushReturn_stack_getElem s.pc ⟨s.sp.toNat, hroom⟩)
    rw [if_pos rfl] at hentry
    rw [State.topReturn, hsp, Nat.add_sub_cancel, Vector.getElem?_eq_getElem hroom]
    exact congrArg some hentry
  refine ⟨_, exec_ret_of_top hne htop, rfl, BitVec.eq_of_toNat_eq ?_⟩
  exact (u.toNat_dropReturn_sp hne).trans (by rw [hsp, Nat.add_sub_cancel])

end Sys2Proof.Machine
end

section
/-! Arithmetic, logic, shifts and the random byte (41_load_and_alu.md R91, R93 to R101). -/

namespace Sys2Proof.Machine

/-! ### Instructions that write one register -/

theorem exec_addi (x : Reg) (nn : Byte) (s : State) : exec (.addi x nn) s = complete (s.setReg x (s.reg x + nn)) := rfl

theorem exec_or (x y : Reg) (s : State) : exec (.or x y) s = complete (s.setReg x (s.reg x ||| s.reg y)) := rfl

theorem exec_and (x y : Reg) (s : State) : exec (.and x y) s = complete (s.setReg x (s.reg x &&& s.reg y)) := rfl

theorem exec_xor (x y : Reg) (s : State) : exec (.xor x y) s = complete (s.setReg x (s.reg x ^^^ s.reg y)) := rfl

theorem exec_rnd (x : Reg) (nn : Byte) (s : State) : exec (.rnd x nn) s = complete (s.setReg x (s.rnd &&& nn)) := rfl

/-- Settles O29. -/
theorem addiAddsModulo256 : Obligations.AddiAddsModulo256 := by
  intro x nn s
  obtain ⟨t, hexec, hreg, hpc, frame⟩ := complete_setReg_spec x (s.reg x + nn) s
  refine ⟨decodeWord_of_encode (.addi x nn) (formatXNN_eq_ofNat 0x7#4 x nn), t, hexec, fun r => ?_, hpc, frame,
    effect_of_complete hexec⟩
  rw [hreg, apply_ite BitVec.toNat, BitVec.toNat_add]

/-- An instruction that writes a register whose bits are `bits`, and is done. -/
theorem complete_setReg_bits (x : Reg) {b : Byte} {bits : Nat → Bool} (hb : ∀ k, b.getLsbD k = bits k) (s : State) :
    ∃ t, complete (s.setReg x b) = .next t ∧
      (∀ r, ∀ k < 8, (t.reg r).getLsbD k = if r = x then bits k else (s.reg r).getLsbD k) ∧
      t.pc = s.pc ∧ KeepsAllButRegs s t ∧ t.effect = Effect.quiet := by
  obtain ⟨t, hexec, hreg, hpc, frame⟩ := complete_setReg_spec x b s
  refine ⟨t, hexec, fun r k _ => ?_, hpc, frame, effect_of_complete hexec⟩
  rw [hreg, apply_ite (BitVec.getLsbD · k), hb]

/-- Settles O31: each operation acts bit by bit. -/
theorem orAndXorAreBitwise : Obligations.OrAndXorAreBitwise :=
  fun x y s => ⟨decodeWord_of_encode (.or x y) (formatXYN_eq_ofNat_row 0x8#4 x y 0x1#4),
    decodeWord_of_encode (.and x y) (formatXYN_eq_ofNat_row 0x8#4 x y 0x2#4),
    decodeWord_of_encode (.xor x y) (formatXYN_eq_ofNat_row 0x8#4 x y 0x3#4),
    exec_or x y s ▸ complete_setReg_bits x (fun _ => BitVec.getLsbD_or) s,
    exec_and x y s ▸ complete_setReg_bits x (fun _ => BitVec.getLsbD_and) s,
    exec_xor x y s ▸ complete_setReg_bits x (fun _ => BitVec.getLsbD_xor) s⟩

/-- Settles O35: with `nn` all zeros or all ones the masked byte is zero or the input. -/
theorem rndMasksTheRandomInput : Obligations.RndMasksTheRandomInput := by
  intro x nn s
  refine ⟨decodeWord_of_encode (.rnd x nn) (formatXNN_eq_ofNat 0xC#4 x nn), ?_, fun _ _ => rfl⟩
  obtain ⟨t, hexec, hreg, hpc, frame⟩ := complete_setReg_spec x (s.rnd &&& nn) s
  have hx : t.reg x = s.rnd &&& nn := (hreg x).trans (if_pos rfl)
  refine ⟨t, hexec, fun r k _ => ?bits, ?zeros, ?ones, hpc, frame, effect_of_complete hexec⟩
  case bits => rw [hreg, apply_ite (BitVec.getLsbD · k), BitVec.getLsbD_and]
  case zeros => rintro rfl; exact hx.trans BitVec.and_zero
  case ones => rintro rfl; exact hx.trans BitVec.and_allOnes

/-! ### Instructions that write a result and a flag -/

theorem exec_add (x y : Reg) (s : State) : exec (.add x y) s =
    complete (s.setResultAndFlag x (s.reg x + s.reg y) (carryOut (s.reg x) (s.reg y))) := rfl

theorem exec_sub (x y : Reg) (s : State) : exec (.sub x y) s =
    complete (s.setResultAndFlag x (s.reg x - s.reg y) (noBorrow (s.reg x) (s.reg y))) := rfl

theorem exec_subn (x y : Reg) (s : State) : exec (.subn x y) s =
    complete (s.setResultAndFlag x (s.reg y - s.reg x) (noBorrow (s.reg y) (s.reg x))) := rfl

theorem exec_shr (x y : Reg) (s : State) : exec (.shr x y) s =
    complete (s.setResultAndFlag x (s.reg y >>> 1) (shiftedOutRight (s.reg y))) := rfl

theorem exec_shl (x y : Reg) (s : State) : exec (.shl x y) s =
    complete (s.setResultAndFlag x (s.reg y <<< 1) (shiftedOutLeft (s.reg y))) := rfl

/-- The same with the flag and the result as numbers. -/
theorem complete_setResultAndFlag_nat (x : Reg) {b : Byte} {f : Bool} {flag result : Nat}
    (hf : (if f = true then 1 else 0) = flag) (hb : b.toNat = result) (s : State) :
    ∃ t, complete (s.setResultAndFlag x b f) = .next t ∧
      (∀ r, (t.reg r).toNat = if r = 15 then flag else if r = x then result else (s.reg r).toNat) ∧
      t.pc = s.pc ∧ KeepsAllButRegs s t ∧ t.effect = Effect.quiet :=
  hf ▸ hb ▸ complete_setResultAndFlag_spec x b f s

theorem carryOut_flag (a b : Byte) :
    (if carryOut a b = true then 1 else 0) = if a.toNat + b.toNat > 255 then 1 else 0 := by
  simp only [carryOut, decide_eq_true_eq, gt_iff_lt]

theorem noBorrow_flag (a b : Byte) :
    (if noBorrow a b = true then 1 else 0) = if a.toNat ≥ b.toNat then 1 else 0 := by
  simp only [noBorrow, decide_eq_true_eq, ge_iff_le]

/-- The difference modulo 256: 256 is borrowed when it would be negative. -/
theorem toNat_sub_borrow (a b : Byte) : (a - b).toNat =
    if a.toNat ≥ b.toNat then a.toNat - b.toNat else a.toNat + 256 - b.toNat := by
  split <;> bv_omega

theorem shiftedOutRight_flag (b : Byte) : (if shiftedOutRight b = true then 1 else 0) = b.toNat % 2 := by
  simp only [shiftedOutRight, decide_eq_true_eq]
  split <;> omega

theorem shiftedOutLeft_flag (b : Byte) : (if shiftedOutLeft b = true then 1 else 0) = b.toNat / 128 := by
  simp only [shiftedOutLeft, decide_eq_true_eq]
  split <;> omega

theorem toNat_shiftRight_one (b : Byte) : (b >>> 1).toNat = b.toNat / 2 := by
  rw [BitVec.toNat_ushiftRight, Nat.shiftRight_eq_div_pow, pow_one]

theorem toNat_shiftLeft_one (b : Byte) : (b <<< 1).toNat = 2 * b.toNat % 256 := by
  rw [BitVec.toNat_shiftLeft, Nat.shiftLeft_eq, pow_one, Nat.mul_comm]

/-- Settles O32. -/
theorem addSumsAndSetsTheCarry : Obligations.AddSumsAndSetsTheCarry :=
  fun x y s => ⟨decodeWord_of_encode (.add x y) (formatXYN_eq_ofNat_row 0x8#4 x y 0x4#4),
    exec_add x y s ▸ complete_setResultAndFlag_nat x (carryOut_flag _ _) (BitVec.toNat_add _ _) s⟩

/-- Settles O33. -/
theorem subAndSubnSetNoBorrow : Obligations.SubAndSubnSetNoBorrow :=
  fun x y s => ⟨decodeWord_of_encode (.sub x y) (formatXYN_eq_ofNat_row 0x8#4 x y 0x5#4),
    decodeWord_of_encode (.subn x y) (formatXYN_eq_ofNat_row 0x8#4 x y 0x7#4),
    exec_sub x y s ▸ complete_setResultAndFlag_nat x (noBorrow_flag _ _) (toNat_sub_borrow _ _) s,
    exec_subn x y s ▸ complete_setResultAndFlag_nat x (noBorrow_flag _ _) (toNat_sub_borrow _ _) s⟩

/-- Settles O34. -/
theorem shiftsReadVyAndSetTheBitOut : Obligations.ShiftsReadVyAndSetTheBitOut :=
  fun x y s => ⟨decodeWord_of_encode (.shr x y) (formatXYN_eq_ofNat_row 0x8#4 x y 0x6#4),
    decodeWord_of_encode (.shl x y) (formatXYN_eq_ofNat_row 0x8#4 x y 0xE#4),
    exec_shr x y s ▸ complete_setResultAndFlag_nat x (shiftedOutRight_flag _) (toNat_shiftRight_one _) s,
    exec_shl x y s ▸ complete_setResultAndFlag_nat x (shiftedOutLeft_flag _) (toNat_shiftLeft_one _) s⟩

end Sys2Proof.Machine
end

section
/-! The index register and the memory instructions (42_index_and_memory.md R111 to R115). -/

namespace Sys2Proof.Machine

theorem exec_addidx (x : Reg) (s : State) : exec (.addidx x) s = complete (s.setI (s.i + zextByte (s.reg x))) := rfl

theorem toNat_zextByte (b : Byte) : (zextByte b).toNat = b.toNat := BitVec.toNat_setWidth_of_le (by decide)

/-- Settles O37. -/
theorem addidxAddsModulo65536 : Obligations.AddidxAddsModulo65536 := by
  intro x s
  obtain ⟨t, hexec, hi, hpc, hregs, hmem, hstack, htimers, hscreen, hfault, hhost⟩ :=
    complete_setI_spec (s.i + zextByte (s.reg x)) s
  refine ⟨decodeWord_of_encode (.addidx x) (formatXNN_F_eq_ofNat x 0x1E#8), t, (exec_addidx x s).trans hexec, ?_, hpc,
    hregs, hmem, hstack, htimers, hscreen, hfault, hhost, effect_of_complete hexec⟩
  rw [hi, BitVec.toNat_add, toNat_zextByte]

/-- A write of memory and the reported `Effect` leave everything else. -/
theorem State.report_mem_keepsAllButMem (s : State) (m : Memory) (e : Effect) :
    KeepsAllButMem s ({ s with mem := m }.report e) :=
  ⟨fun _ => rfl, rfl, ⟨rfl, fun _ => rfl⟩, ⟨rfl, rfl⟩, fun _ => rfl, rfl, rfl, rfl, rfl, rfl, rfl, rfl⟩

/-! ### Fx55 and Fx65 -/

theorem exec_stm (x : Reg) (s : State) : exec (.stm x) s = complete (s.storeRegs (regsUpTo x)) := rfl

theorem exec_ldm (x : Reg) (s : State) : exec (.ldm x) s = complete (s.loadRegs (regsUpTo x)) := rfl

/-- Settles O39, by the laws of the stores over the run `V[0]` to `V[x]`. -/
theorem stmStoresTheRegisters : Obligations.StmStoresTheRegisters := by
  intro x s hm
  refine ⟨decodeWord_of_encode (.stm x) (formatXNN_F_eq_ofNat x 0x55#8), _, exec_stm x s, fun k hk => ?stored,
    fun a ha => ?other, ?pc, ?frame, rfl⟩
  case stored => exact s.storeRegs_readByte _ k hm (regsUpTo_nodup x) ((mem_regsUpTo x k).mpr hk)
  case other => exact s.storeRegs_readByte_other _ a hm fun k hk => ha k ((mem_regsUpTo x k).mp hk)
  case pc => rw [State.storeRegs_frame]; rfl
  case frame => rw [State.storeRegs_frame]; exact s.report_mem_keepsAllButMem _ _

/-- Settles O40, by the law of the loads over the run `V[0]` to `V[x]`. -/
theorem ldmLoadsTheRegisters : Obligations.LdmLoadsTheRegisters := by
  intro x s
  refine ⟨decodeWord_of_encode (.ldm x) (formatXNN_F_eq_ofNat x 0x65#8), _, exec_ldm x s, fun k => ?loaded, ?pc, ?frame,
    rfl⟩
  case loaded => simp only [State.report_reg, State.loadRegs_reg, mem_regsUpTo]
  case pc => rw [State.loadRegs_frame]; rfl
  case frame =>
    rw [State.loadRegs_frame]
    exact ⟨fun _ => rfl, rfl, ⟨rfl, fun _ => rfl⟩, ⟨rfl, rfl⟩, fun _ => rfl, rfl, rfl, rfl, rfl, rfl, rfl, rfl⟩

/-- Settles O41: the loads read the addresses the stores wrote. -/
theorem stmThenLdmRoundTrips : Obligations.StmThenLdmRoundTrips := by
  intro x s hm
  obtain ⟨-, t, hstm, hstored, -, -, ⟨-, hti, -⟩, -⟩ := stmStoresTheRegisters x s hm
  refine ⟨t, hstm, fun u humem hui => ?_⟩
  obtain ⟨-, r, hldm, hloaded, -⟩ := ldmLoadsTheRegisters x u
  refine ⟨r, hldm, fun k hk => ?_⟩
  have haddr : u.indexAddr k.val = s.indexAddr k.val := by rw [State.indexAddr, State.indexAddr, hui, hti]
  rw [hloaded k, if_pos hk, haddr, humem, hstored k hk]

/-! ### Fx33 -/

/-- The three stores of `Fx33`. -/
def State.storeDigits (s : State) (v : Byte) : State :=
  ((s.writeIndexed 0 (v / 100)).writeIndexed 1 (v / 10 % 10)).writeIndexed 2 (v % 10)

theorem exec_bcd (x : Reg) (s : State) : exec (.bcd x) s = complete (s.storeDigits (s.reg x)) := rfl

theorem State.storeDigits_readByte (s : State) (v : Byte) (a : Addr) (hm : Memory.wf s.params.font s.mem) :
    (s.storeDigits v).readByte a =
      if a = s.indexAddr 2 then v % 10 else if a = s.indexAddr 1 then v / 10 % 10
      else if a = s.indexAddr 0 then v / 100 else s.readByte a := by
  have hm₀ := s.writeByte_wf (s.indexAddr 0) (v / 100) hm
  have hm₁ := State.writeByte_wf _ (s.indexAddr 1) (v / 10 % 10) hm₀
  simp only [State.storeDigits, State.writeIndexed_eq, State.writeByte_indexAddr]
  rw [State.readByte_writeByte _ _ _ _ hm₁, State.readByte_writeByte _ _ _ _ hm₀, State.readByte_writeByte _ _ _ _ hm]

/-- Settles O38: the three addresses differ, so each digit is the last byte written there. -/
theorem bcdStoresThreeDigits : Obligations.BcdStoresThreeDigits := by
  intro x s hm
  have hread := fun a => s.storeDigits_readByte (s.reg x) a hm
  have h01 : s.indexAddr 0 ≠ s.indexAddr 1 := fun h => absurd (s.indexAddr_inj (by decide) (by decide) h) (by decide)
  have h02 : s.indexAddr 0 ≠ s.indexAddr 2 := fun h => absurd (s.indexAddr_inj (by decide) (by decide) h) (by decide)
  have h12 : s.indexAddr 1 ≠ s.indexAddr 2 := fun h => absurd (s.indexAddr_inj (by decide) (by decide) h) (by decide)
  refine ⟨decodeWord_of_encode (.bcd x) (formatXNN_F_eq_ofNat x 0x33#8), _, exec_bcd x s, ?hundreds, ?tens, ?ones,
    fun a h0 h1 h2 => ?other, rfl, s.report_mem_keepsAllButMem _ _, rfl⟩
  case hundreds => rw [State.report_readByte, hread, if_neg h02, if_neg h01, if_pos rfl]; exact BitVec.toNat_udiv
  case tens =>
    rw [State.report_readByte, hread, if_neg h12, if_pos rfl, BitVec.toNat_umod, BitVec.toNat_udiv]; rfl
  case ones => rw [State.report_readByte, hread, if_pos rfl]; exact BitVec.toNat_umod
  case other => rw [State.report_readByte, hread, if_neg h2, if_neg h1, if_neg h0]

/-! ### A store under the next fetch (20_memory.md section 4) -/

/-- The `k`-th fetched byte is at `EA(pc + k)`. -/
theorem State.fetchBytes_getElem? (s : State) {k : Nat} (hk : k < 2) :
    s.fetchBytes[k]? = some (s.readByte (ea (s.pc + BitVec.ofNat 16 k))) := by
  interval_cases k
  · rw [State.fetchBytes, List.getElem?_cons_zero, BitVec.add_zero]
  · rfl

/-- The `j`-th digit of `Fx33` by its weight. -/
theorem bcd_readByte_digit {s t : State} {x : Reg} {j : Nat} (hj : j < 3)
    (h0 : (t.readByte (s.indexAddr 0)).toNat = (s.reg x).toNat / 100)
    (h1 : (t.readByte (s.indexAddr 1)).toNat = (s.reg x).toNat / 10 % 10)
    (h2 : (t.readByte (s.indexAddr 2)).toNat = (s.reg x).toNat % 10) :
    (t.readByte (s.indexAddr j)).toNat = (s.reg x).toNat / (100 / 10 ^ j) % 10 := by
  interval_cases j
  · rw [h0]; omega
  · exact h1
  · rw [h2]; omega

/-- Settles O13: each fetched byte is a byte of memory, which the statements of the two instructions give. -/
theorem storeIsSeenByTheNextFetch : Obligations.StoreIsSeenByTheNextFetch := by
  intro x s hm
  refine ⟨?stm, ?bcd⟩
  case stm =>
    obtain ⟨-, t, hexec, hstored, hother, hpc, -⟩ := stmStoresTheRegisters x s hm
    refine ⟨t, hexec, hpc, fun k hk => ?_⟩
    rw [t.fetchBytes_getElem? hk, s.fetchBytes_getElem? hk, hpc]
    exact ⟨fun j hj haddr => by rw [haddr, hstored j hj], fun hne => by rw [hother _ hne]⟩
  case bcd =>
    obtain ⟨-, t, hexec, h0, h1, h2, hother, hpc, -⟩ := bcdStoresThreeDigits x s hm
    refine ⟨t, hexec, hpc, fun k hk => ?_⟩
    rw [t.fetchBytes_getElem? hk, s.fetchBytes_getElem? hk, hpc]
    refine ⟨fun j hj haddr => ?_, fun hne => ?_⟩
    · rw [haddr, Option.map_some, bcd_readByte_digit hj h0 h1 h2]
    · rw [hother _ (hne 0 (by decide)) (hne 1 (by decide)) (hne 2 (by decide))]

end Sys2Proof.Machine
end

section
/-! The display instructions (43_display.md R120, R121). -/

namespace Sys2Proof.Machine

theorem exec_cls (s : State) : exec .cls s = completeDirty (s.setFb blankScreen) := rfl

theorem exec_drw (x y : Reg) (n : BitVec 4) (s : State) : exec (.drw x y n) s =
    completeDirty ((s.setFb (drawPixels s.fb (s.spritePixels x y n)).1).setReg vf
      (flagByte (drawPixels s.fb (s.spritePixels x y n)).2)) := rfl

/-- Settles O42. -/
theorem clsClearsTheScreen : Obligations.ClsClearsTheScreen :=
  fun s => ⟨decodeWord_encode .cls, _, exec_cls s, pixelOf_blankScreen, rfl, fun _ => rfl, fun _ => rfl, rfl,
    ⟨rfl, fun _ => rfl⟩, ⟨rfl, rfl⟩, rfl, ⟨rfl, rfl, rfl, rfl, rfl, rfl⟩, rfl⟩

/-- The sprite's pixels are those under its 1 bits. -/
theorem spriteCovers_iff_mem (s : State) (x y : Reg) (n : BitVec 4) (k : Pixel) :
    SpriteCovers s x y n k ↔ k ∈ s.spritePixels x y n := by
  rw [State.mem_spritePixels]
  constructor
  · rintro ⟨row, col, hrow, hcol, hbit, hk⟩
    exact ⟨row, hrow, col, hcol, hbit, Fin.ext hk.symm⟩
  · rintro ⟨row, hrow, col, hcol, hbit, hk⟩
    exact ⟨row, col, hrow, hcol, hbit, congrArg Fin.val hk.symm⟩

/-- Settles O43: no pixel comes twice in a sprite, so each of its pixels is toggled once, and the collision is one of
them that was on. -/
theorem drwTogglesTheSpriteAndSetsCollision : Obligations.DrwTogglesTheSpriteAndSetsCollision := by
  intro x y n s
  have hnodup := s.spritePixels_nodup x y n
  have hpixel := pixelOf_drawPixels s.fb _ hnodup
  have hcollision := drawPixels_collision s.fb _ hnodup
  simp only [spriteCovers_iff_mem]
  refine ⟨decodeWord_of_encode (.drw x y n) (formatXYN_eq_ofNat 0xD#4 x y n), _, exec_drw x y n s,
    fun k => ⟨fun hk => ?toggled, fun hk => ?kept⟩, fun hon => ?collision, fun hoff => ?noCollision, fun r hr => ?regs,
    rfl, fun _ => rfl, rfl, ⟨rfl, fun _ => rfl⟩, ⟨rfl, rfl⟩, rfl, ⟨rfl, rfl, rfl, rfl, rfl, rfl⟩, rfl⟩
  case toggled => exact (hpixel k).trans (if_pos hk)
  case kept => exact (hpixel k).trans (if_neg hk)
  case collision =>
    refine (State.setReg_reg _ vf _ 15).trans ((if_pos rfl).trans ?_)
    rw [hcollision.mpr hon]
    rfl
  case noCollision =>
    have hnone : (drawPixels s.fb (s.spritePixels x y n)).2 = false := by
      rw [Bool.eq_false_iff, Ne, hcollision]
      rintro ⟨k, hk, hon⟩
      exact Bool.false_ne_true ((hoff k hk).symm.trans hon)
    refine (State.setReg_reg _ vf _ 15).trans ((if_pos rfl).trans ?_)
    rw [hnone]
    rfl
  case regs => exact (State.setReg_reg _ vf _ r).trans (if_neg hr)

/-- A sprite depends on memory, `I` and the two registers of its position only. -/
theorem spriteCovers_congr {s t : State} {x y : Reg} (hm : KeepsMem s t) (hi : t.i = s.i) (hx : t.reg x = s.reg x)
    (hy : t.reg y = s.reg y) (n : BitVec 4) (k : Pixel) : SpriteCovers t x y n k ↔ SpriteCovers s x y n k := by
  simp only [SpriteCovers, hm _, hi, hx, hy]

/-- Settles O44: the second draw covers the same pixels and toggles them back. -/
theorem drawingTwiceRestoresTheScreen : Obligations.DrawingTwiceRestoresTheScreen := by
  intro x y n s hx hy
  obtain ⟨-, t, ht, hpix, -, -, hregs, -, hmem, hi, -⟩ := drwTogglesTheSpriteAndSetsCollision x y n s
  obtain ⟨-, u, hu, hpix', -⟩ := drwTogglesTheSpriteAndSetsCollision x y n t
  refine ⟨t, u, ht, hu, fun k => ?_⟩
  have hcovers := spriteCovers_congr hmem hi (hregs x hx) (hregs y hy) n k
  by_cases hk : SpriteCovers s x y n k
  · rw [(hpix' k).1 (hcovers.mpr hk), (hpix k).1 hk, Bool.not_not]
  · rw [(hpix' k).2 (mt hcovers.mp hk), (hpix k).2 hk]

end Sys2Proof.Machine
end

section
/-! The key instructions (44_keypad_and_timers.md R130, R131, R135). -/

namespace Sys2Proof.Machine

theorem exec_skp_of_keypad (x : Reg) {s : State} (h : s.params.keypadPresent = true) :
    exec (.skp x) s = complete (if s.keyPressed x = true then s.skip else s) := by
  simp only [exec, execSkp, h, Bool.true_and]

theorem exec_sknp_of_keypad (x : Reg) {s : State} (h : s.params.keypadPresent = true) :
    exec (.sknp x) s = complete (if ¬ s.keyPressed x = true then s.skip else s) := by
  simp only [exec, execSknp, h, Bool.true_and, Bool.not_eq_true', Bool.not_eq_true]

/-- Settles O45: with a keypad both instructions are conditional skips, SKNP on the negated condition. -/
theorem keySkipsWithAKeypad : Obligations.KeySkipsWithAKeypad := by
  intro x s hpad
  refine ⟨decodeWord_of_encode (.skp x) (formatXNN_eq_ofNat_row 0xE#4 x 0x9E#8),
    decodeWord_of_encode (.sknp x) (formatXNN_eq_ofNat_row 0xE#4 x 0xA1#8), ?skp, ?sknp, fun _ _ => rfl⟩
  case skp =>
    obtain ⟨t, hexec, hpc, frame⟩ := complete_skip_if_spec (s.keyPressed x = true) s
    exact ⟨t, (exec_skp_of_keypad x hpad).trans hexec, hpc, frame, effect_of_complete hexec⟩
  case sknp =>
    obtain ⟨t, hexec, hpc, frame⟩ := complete_skip_if_spec (¬ s.keyPressed x = true) s
    rw [ite_not] at hpc
    exact ⟨t, (exec_sknp_of_keypad x hpad).trans hexec, hpc, frame, effect_of_complete hexec⟩

/-- Settles O46. -/
theorem keySkipsWithoutAKeypadAreNoOps : Obligations.KeySkipsWithoutAKeypadAreNoOps := by
  intro x s hpad
  have frame : KeepsAllButPc s (s.report Effect.quiet) := s.report_setPc_keepsAllButPc s.pc _
  exact ⟨⟨_, exec_skp_of_noKeypad x hpad, rfl, frame, rfl⟩, ⟨_, exec_sknp_of_noKeypad x hpad, rfl, frame, rfl⟩⟩

end Sys2Proof.Machine
end
